-- ==== Sys2Proof/Word.lean ====
section
/-! DEFINITION. The word types of the engine and the integer readings of a word (00_scope.md §5, R9). -/

namespace Sys2Proof

/-- A Word32: 32 bits, bit 31 the most significant (00_scope.md §5). -/
abbrev Word := BitVec 32

/-- One byte of memory or of the console. -/
abbrev Byte := BitVec 8

/-- An instruction record packed into one 64-bit word (30_encoding.md R62). -/
abbrev Record := BitVec 64

/-- A register number, 0..31 (10_state.md R20, 30_encoding.md R60). -/
abbrev Reg := Fin 32

/-- `u(v)`: the unsigned value of a word, as a mathematical integer (00_scope.md §5). -/
def uval (v : Word) : Int := (v.toNat : Int)

/-- `s(v)`: the two's-complement signed value of a word (00_scope.md §5). -/
def sval (v : Word) : Int := v.toInt

/-- `w32(n)`: the word whose unsigned value is `n mod 2^32` (00_scope.md §5). -/
def w32 (n : Int) : Word := BitVec.ofInt 32 n

end Sys2Proof
end

