-- ==== Sys2Proof/Syntax.lean ====
section
/-! DEFINITION. The syntax of the engine: operand forms (R61), mnemonics (R64) and the 73 instructions, one constructor for each legal (mnemonic, form) pair of R65 and row of the opcode table. -/

namespace Sys2Proof

/-- The eight operand forms of a record (R61). `nullary` is the form NONE. -/
inductive Form where
  | nullary | r | rr | rrr | rri | ra | ri | a
  deriving DecidableEq, Repr

/-- The 60 mnemonics, in the order of R64. -/
inductive Mnemonic where
  | add | addu | addi | addiu | and | andi | or | ori | xor | xori
  | nor | sub | subu | div | divu | mult | multu | mul | mulu | rem
  | sll | srl | sllv | srlv | sra | srav | slt | sltu | slti | sltiu
  | beq | bne | blt | bgt | bgez | bgtz | blez | j | jal | jr
  | jalr | la | li | lhi | llo | lb | lbu | lh | lhu | lw
  | sb | sh | sw | mfhi | mflo | mthi | mtlo | move | nop | syscall
  deriving DecidableEq, Repr

/-- The instructions: one constructor for each legal (mnemonic, form) pair of R65. Register operands
and the 32-bit immediate stand in the order of the record fields ra, rb, rc, imm. -/
inductive Instr where
  -- Arithmetic and logic (40_arith_logic.md)
  /-- `add rd, rs, rt` (R100), form RRR. -/
  | add (rd rs rt : Reg)
  /-- `addu rd, rs, rt` (R101), form RRR. -/
  | addu (rd rs rt : Reg)
  /-- `addi rt, rs, imm` (R102), form RRI. -/
  | addi (rt rs : Reg) (imm : Word)
  /-- `addiu rt, rs, imm` (R103), form RRI. -/
  | addiu (rt rs : Reg) (imm : Word)
  /-- `and rd, rs, rt` (R104), form RRR. -/
  | and (rd rs rt : Reg)
  /-- `andi rt, rs, imm` (R105), form RRI. -/
  | andi (rt rs : Reg) (imm : Word)
  /-- `or rd, rs, rt` (R106), form RRR. -/
  | or (rd rs rt : Reg)
  /-- `ori rt, rs, imm` (R107), form RRI. -/
  | ori (rt rs : Reg) (imm : Word)
  /-- `xor rd, rs, rt` (R108), form RRR. -/
  | xor (rd rs rt : Reg)
  /-- `xori rt, rs, imm` (R109), form RRI. -/
  | xori (rt rs : Reg) (imm : Word)
  /-- `nor rd, rs, rt` (R110), form RRR. -/
  | nor (rd rs rt : Reg)
  /-- `sub rd, rs, rt` (R111), form RRR. -/
  | sub (rd rs rt : Reg)
  /-- `subu rd, rs, rt` (R112), form RRR. -/
  | subu (rd rs rt : Reg)
  -- Multiply, divide and remainder (41_muldiv_rem.md)
  /-- `div rs, rt` (R120), form RR. -/
  | div (rs rt : Reg)
  /-- `divu rs, rt` (R121), form RR. -/
  | divu (rs rt : Reg)
  /-- `mult rs, rt` (R122), form RR. -/
  | mult (rs rt : Reg)
  /-- `multu rs, rt` (R123), form RR. -/
  | multu (rs rt : Reg)
  /-- `mul rd, rs, rt` (R124), form RRR. -/
  | mul (rd rs rt : Reg)
  /-- `mulu rd, rs, rt` (R125), form RRR. -/
  | mulu (rd rs rt : Reg)
  /-- `rem rd, rs, rt` (R126), form RRR. -/
  | remReg (rd rs rt : Reg)
  /-- `rem rd, rs, imm` (R126), form RRI. -/
  | remImm (rd rs : Reg) (imm : Word)
  -- Shifts (42_shift.md)
  /-- `sll rd, rt, rs` (R131), form RRR. -/
  | sllReg (rd rt rs : Reg)
  /-- `sll rd, rt, sa` (R131), form RRI. -/
  | sllImm (rd rt : Reg) (sa : Word)
  /-- `srl rd, rt, rs` (R132), form RRR. -/
  | srlReg (rd rt rs : Reg)
  /-- `srl rd, rt, sa` (R132), form RRI. -/
  | srlImm (rd rt : Reg) (sa : Word)
  /-- `sllv rd, rt, rs` (R133), form RRR. -/
  | sllv (rd rt rs : Reg)
  /-- `srlv rd, rt, rs` (R134), form RRR. -/
  | srlv (rd rt rs : Reg)
  /-- `sra rd, rt, sa` (R135), form RRI. -/
  | sra (rd rt : Reg) (sa : Word)
  /-- `srav rd, rt, rs` (R136), form RRR. -/
  | srav (rd rt rs : Reg)
  -- Comparisons (43_compare.md)
  /-- `slt rd, rs, rt` (R140), form RRR. -/
  | slt (rd rs rt : Reg)
  /-- `sltu rd, rs, rt` (R141), form RRR. -/
  | sltu (rd rs rt : Reg)
  /-- `slti rt, rs, imm` (R142), form RRI. -/
  | slti (rt rs : Reg) (imm : Word)
  /-- `sltiu rt, rs, imm` (R143), form RRI. -/
  | sltiu (rt rs : Reg) (imm : Word)
  -- Branches (44_branch.md)
  /-- `beq rs, rt, target` (R151), form RRI. -/
  | beq (rs rt : Reg) (target : Word)
  /-- `bne rs, rt, target` (R152), form RRI. -/
  | bne (rs rt : Reg) (target : Word)
  /-- `blt rs, rt, target` (R153), form RRI. -/
  | blt (rs rt : Reg) (target : Word)
  /-- `bgt rs, rt, target` (R154), form RRI. -/
  | bgt (rs rt : Reg) (target : Word)
  /-- `bgez rs, target` (R155), form RA. -/
  | bgez (rs : Reg) (target : Word)
  /-- `bgtz rs, target` (R156), form RA. -/
  | bgtz (rs : Reg) (target : Word)
  /-- `blez rs, target` (R157), form RA. -/
  | blez (rs : Reg) (target : Word)
  -- Jumps (45_jump.md)
  /-- `j target` (R160), form A. -/
  | j (target : Word)
  /-- `jal target` (R161), form A. -/
  | jal (target : Word)
  /-- `jr rs` (R162), form R. -/
  | jr (rs : Reg)
  /-- `jalr rs` (R163), form R. -/
  | jalr (rs : Reg)
  -- Load-immediate and address (46_load_immediate.md)
  /-- `la rt, value` (R170), form RA. -/
  | laDirect (rt : Reg) (value : Word)
  /-- `la rt, offset(base)` (R170), form RI. -/
  | laIndirect (rt base : Reg) (offset : Word)
  /-- `li rt, value` (R171), form RA. -/
  | liDirect (rt : Reg) (value : Word)
  /-- `li rt, offset(base)` (R171), form RI. -/
  | liIndirect (rt base : Reg) (offset : Word)
  /-- `lhi rt, value` (R172), form RA. -/
  | lhi (rt : Reg) (value : Word)
  /-- `llo rt, value` (R173), form RA. -/
  | llo (rt : Reg) (value : Word)
  -- Loads and stores (47_load_store.md)
  /-- `lb rt, address` (R181), form RA. -/
  | lbDirect (rt : Reg) (address : Word)
  /-- `lb rt, offset(base)` (R181), form RI. -/
  | lbIndirect (rt base : Reg) (offset : Word)
  /-- `lbu rt, address` (R182), form RA. -/
  | lbuDirect (rt : Reg) (address : Word)
  /-- `lbu rt, offset(base)` (R182), form RI. -/
  | lbuIndirect (rt base : Reg) (offset : Word)
  /-- `lh rt, address` (R183), form RA. -/
  | lhDirect (rt : Reg) (address : Word)
  /-- `lh rt, offset(base)` (R183), form RI. -/
  | lhIndirect (rt base : Reg) (offset : Word)
  /-- `lhu rt, address` (R184), form RA. -/
  | lhuDirect (rt : Reg) (address : Word)
  /-- `lhu rt, offset(base)` (R184), form RI. -/
  | lhuIndirect (rt base : Reg) (offset : Word)
  /-- `lw rt, address` (R185), form RA. -/
  | lwDirect (rt : Reg) (address : Word)
  /-- `lw rt, offset(base)` (R185), form RI. -/
  | lwIndirect (rt base : Reg) (offset : Word)
  /-- `sb rt, address` (R186), form RA. -/
  | sbDirect (rt : Reg) (address : Word)
  /-- `sb rt, offset(base)` (R186), form RI. -/
  | sbIndirect (rt base : Reg) (offset : Word)
  /-- `sh rt, address` (R187), form RA. -/
  | shDirect (rt : Reg) (address : Word)
  /-- `sh rt, offset(base)` (R187), form RI. -/
  | shIndirect (rt base : Reg) (offset : Word)
  /-- `sw rt, address` (R188), form RA. -/
  | swDirect (rt : Reg) (address : Word)
  /-- `sw rt, offset(base)` (R188), form RI. -/
  | swIndirect (rt base : Reg) (offset : Word)
  -- Register moves (48_move.md)
  /-- `mfhi rd` (R190), form R. -/
  | mfhi (rd : Reg)
  /-- `mflo rd` (R191), form R. -/
  | mflo (rd : Reg)
  /-- `mthi rs` (R192), form R. -/
  | mthi (rs : Reg)
  /-- `mtlo rs` (R193), form R. -/
  | mtlo (rs : Reg)
  /-- `move rd, rs` (R194), form RR. -/
  | move (rd rs : Reg)
  -- No-operation and syscall (49_system.md)
  /-- `nop` (R200), form NONE. -/
  | nop
  /-- `syscall` (R201), form NONE. -/
  | syscall
  deriving DecidableEq, Repr

end Sys2Proof
end

