-- ==== Sys2Proof/WellFormed.lean ====
section
/-! DEFINITION. Well-formedness: the operand ranges R68 (e) and (f) put on the literal shifts and on lhi and llo. -/

namespace Sys2Proof

/-- R68 (e): a literal shift amount is legal when `u(imm) <= 31`. -/
def shiftLiteralOk (sa : Word) : Bool := decide (uval sa ≤ 31)

/-- R68 (f): a half value is legal when `-2^15 <= s(imm) <= 2^16 - 1`. -/
def halfLiteralOk (value : Word) : Bool := decide (-32768 ≤ sval value ∧ sval value ≤ 65535)

/-- The operands are ones a legal record can carry (R68 (e), (f)). -/
def Instr.wf : Instr → Bool
  | .add _ _ _ => true
  | .addu _ _ _ => true
  | .addi _ _ _ => true
  | .addiu _ _ _ => true
  | .and _ _ _ => true
  | .andi _ _ _ => true
  | .or _ _ _ => true
  | .ori _ _ _ => true
  | .xor _ _ _ => true
  | .xori _ _ _ => true
  | .nor _ _ _ => true
  | .sub _ _ _ => true
  | .subu _ _ _ => true
  | .div _ _ => true
  | .divu _ _ => true
  | .mult _ _ => true
  | .multu _ _ => true
  | .mul _ _ _ => true
  | .mulu _ _ _ => true
  | .remReg _ _ _ => true
  | .remImm _ _ _ => true
  | .sllReg _ _ _ => true
  | .sllImm _ _ sa => shiftLiteralOk sa
  | .srlReg _ _ _ => true
  | .srlImm _ _ sa => shiftLiteralOk sa
  | .sllv _ _ _ => true
  | .srlv _ _ _ => true
  | .sra _ _ sa => shiftLiteralOk sa
  | .srav _ _ _ => true
  | .slt _ _ _ => true
  | .sltu _ _ _ => true
  | .slti _ _ _ => true
  | .sltiu _ _ _ => true
  | .beq _ _ _ => true
  | .bne _ _ _ => true
  | .blt _ _ _ => true
  | .bgt _ _ _ => true
  | .bgez _ _ => true
  | .bgtz _ _ => true
  | .blez _ _ => true
  | .j _ => true
  | .jal _ => true
  | .jr _ => true
  | .jalr _ => true
  | .laDirect _ _ => true
  | .laIndirect _ _ _ => true
  | .liDirect _ _ => true
  | .liIndirect _ _ _ => true
  | .lhi _ value => halfLiteralOk value
  | .llo _ value => halfLiteralOk value
  | .lbDirect _ _ => true
  | .lbIndirect _ _ _ => true
  | .lbuDirect _ _ => true
  | .lbuIndirect _ _ _ => true
  | .lhDirect _ _ => true
  | .lhIndirect _ _ _ => true
  | .lhuDirect _ _ => true
  | .lhuIndirect _ _ _ => true
  | .lwDirect _ _ => true
  | .lwIndirect _ _ _ => true
  | .sbDirect _ _ => true
  | .sbIndirect _ _ _ => true
  | .shDirect _ _ => true
  | .shIndirect _ _ _ => true
  | .swDirect _ _ => true
  | .swIndirect _ _ _ => true
  | .mfhi _ => true
  | .mflo _ => true
  | .mthi _ => true
  | .mtlo _ => true
  | .move _ _ => true
  | .nop => true
  | .syscall => true

end Sys2Proof
end

