-- ==== Sys2Proof/Decode.lean ====
section
/-! DEFINITION. The decoder of a 64-bit record (R62 to R69, R72), total and rejecting by name, and after it the encoder. -/

namespace Sys2Proof

/-- Why a record is illegal (R68); the names are the model's own (log 7). -/
inductive DecodeError where
  /-- `op` is not in 1..60 (R68 (a), R69). -/
  | reservedTag
  /-- `res` is not 0 (R68 (c)). -/
  | reservedBits
  /-- A field the form does not use is not 0 (R68 (d), R63). -/
  | unusedField
  /-- `form` is not a legal form of `op` (R68 (b)). -/
  | illegalForm
  /-- A literal shift amount or a half value is out of range (R68 (e), (f)). -/
  | operandRange
  deriving DecidableEq, Repr

/-- The fields of a record (R62). -/
structure Fields where
  op   : Fin 256
  form : Form
  ra   : Reg
  rb   : Reg
  rc   : Reg
  res  : Fin 64
  imm  : Word
  deriving DecidableEq, Repr

/-- The form code of R61. -/
def Form.code : Form → Nat
  | .nullary => 0 | .r => 1 | .rr => 2 | .rrr => 3 | .rri => 4 | .ra => 5 | .ri => 6 | .a => 7

/-- The form with a given 3-bit code (R61); the code is read modulo 8. -/
def Form.ofCode (c : Nat) : Form :=
  match c % 8 with
  | 0 => .nullary | 1 => .r | 2 => .rr | 3 => .rrr | 4 => .rri | 5 => .ra | 6 => .ri | _ => .a

/-- The opcode tag of a mnemonic (R64). -/
def Mnemonic.tag : Mnemonic → Fin 256
  | .add => 1 | .addu => 2 | .addi => 3 | .addiu => 4 | .and => 5
  | .andi => 6 | .or => 7 | .ori => 8 | .xor => 9 | .xori => 10
  | .nor => 11 | .sub => 12 | .subu => 13 | .div => 14 | .divu => 15
  | .mult => 16 | .multu => 17 | .mul => 18 | .mulu => 19 | .rem => 20
  | .sll => 21 | .srl => 22 | .sllv => 23 | .srlv => 24 | .sra => 25
  | .srav => 26 | .slt => 27 | .sltu => 28 | .slti => 29 | .sltiu => 30
  | .beq => 31 | .bne => 32 | .blt => 33 | .bgt => 34 | .bgez => 35
  | .bgtz => 36 | .blez => 37 | .j => 38 | .jal => 39 | .jr => 40
  | .jalr => 41 | .la => 42 | .li => 43 | .lhi => 44 | .llo => 45
  | .lb => 46 | .lbu => 47 | .lh => 48 | .lhu => 49 | .lw => 50
  | .sb => 51 | .sh => 52 | .sw => 53 | .mfhi => 54 | .mflo => 55
  | .mthi => 56 | .mtlo => 57 | .move => 58 | .nop => 59 | .syscall => 60

/-- The mnemonics in the order of R64. -/
def allMnemonics : List Mnemonic :=
  [.add, .addu, .addi, .addiu, .and, .andi, .or, .ori, .xor, .xori,
   .nor, .sub, .subu, .div, .divu, .mult, .multu, .mul, .mulu, .rem,
   .sll, .srl, .sllv, .srlv, .sra, .srav, .slt, .sltu, .slti, .sltiu,
   .beq, .bne, .blt, .bgt, .bgez, .bgtz, .blez, .j, .jal, .jr,
   .jalr, .la, .li, .lhi, .llo, .lb, .lbu, .lh, .lhu, .lw,
   .sb, .sh, .sw, .mfhi, .mflo, .mthi, .mtlo, .move, .nop, .syscall]

/-- The mnemonic with a given tag; none for the reserved tags 0 and 61..255 (R69). -/
def mnemonicOf (op : Fin 256) : Option Mnemonic := allMnemonics.find? (fun m => m.tag == op)

/-- The field of `width` bits of `w` whose lowest bit is bit `lo`, as an unsigned value. -/
def recordField (w : Record) (lo width : Nat) : Nat := w.toNat / 2 ^ lo % 2 ^ width

/-- The fields of a record word (R62). -/
def unpack (w : Record) : Fields where
  op   := Fin.ofNat 256 (recordField w 0 8)
  form := Form.ofCode (recordField w 8 3)
  ra   := Fin.ofNat 32 (recordField w 11 5)
  rb   := Fin.ofNat 32 (recordField w 16 5)
  rc   := Fin.ofNat 32 (recordField w 21 5)
  res  := Fin.ofNat 64 (recordField w 26 6)
  imm  := BitVec.ofNat 32 (recordField w 32 32)

/-- R63: every field the form does not use is 0. -/
def Fields.unusedZero (f : Fields) : Bool :=
  match f.form with
  | .nullary => f.ra == 0 && f.rb == 0 && f.rc == 0 && f.imm == 0#32
  | .r   => f.rb == 0 && f.rc == 0 && f.imm == 0#32
  | .rr  => f.rc == 0 && f.imm == 0#32
  | .rrr => f.imm == 0#32
  | .rri => f.rc == 0
  | .ra  => f.rb == 0 && f.rc == 0
  | .ri  => f.rc == 0
  | .a   => f.ra == 0 && f.rb == 0 && f.rc == 0

/-- R65: the instruction of a mnemonic and the operands its form names; none for a (mnemonic, form)
pair R65 does not list. -/
def assemble (m : Mnemonic) (f : Fields) : Option Instr :=
  match m with
  | .add => if f.form = .rrr then some (.add f.ra f.rb f.rc) else none
  | .addu => if f.form = .rrr then some (.addu f.ra f.rb f.rc) else none
  | .addi => if f.form = .rri then some (.addi f.ra f.rb f.imm) else none
  | .addiu => if f.form = .rri then some (.addiu f.ra f.rb f.imm) else none
  | .and => if f.form = .rrr then some (.and f.ra f.rb f.rc) else none
  | .andi => if f.form = .rri then some (.andi f.ra f.rb f.imm) else none
  | .or => if f.form = .rrr then some (.or f.ra f.rb f.rc) else none
  | .ori => if f.form = .rri then some (.ori f.ra f.rb f.imm) else none
  | .xor => if f.form = .rrr then some (.xor f.ra f.rb f.rc) else none
  | .xori => if f.form = .rri then some (.xori f.ra f.rb f.imm) else none
  | .nor => if f.form = .rrr then some (.nor f.ra f.rb f.rc) else none
  | .sub => if f.form = .rrr then some (.sub f.ra f.rb f.rc) else none
  | .subu => if f.form = .rrr then some (.subu f.ra f.rb f.rc) else none
  | .div => if f.form = .rr then some (.div f.ra f.rb) else none
  | .divu => if f.form = .rr then some (.divu f.ra f.rb) else none
  | .mult => if f.form = .rr then some (.mult f.ra f.rb) else none
  | .multu => if f.form = .rr then some (.multu f.ra f.rb) else none
  | .mul => if f.form = .rrr then some (.mul f.ra f.rb f.rc) else none
  | .mulu => if f.form = .rrr then some (.mulu f.ra f.rb f.rc) else none
  | .rem => if f.form = .rrr then some (.remReg f.ra f.rb f.rc) else if f.form = .rri then some (.remImm f.ra f.rb f.imm) else none
  | .sll => if f.form = .rrr then some (.sllReg f.ra f.rb f.rc) else if f.form = .rri then some (.sllImm f.ra f.rb f.imm) else none
  | .srl => if f.form = .rrr then some (.srlReg f.ra f.rb f.rc) else if f.form = .rri then some (.srlImm f.ra f.rb f.imm) else none
  | .sllv => if f.form = .rrr then some (.sllv f.ra f.rb f.rc) else none
  | .srlv => if f.form = .rrr then some (.srlv f.ra f.rb f.rc) else none
  | .sra => if f.form = .rri then some (.sra f.ra f.rb f.imm) else none
  | .srav => if f.form = .rrr then some (.srav f.ra f.rb f.rc) else none
  | .slt => if f.form = .rrr then some (.slt f.ra f.rb f.rc) else none
  | .sltu => if f.form = .rrr then some (.sltu f.ra f.rb f.rc) else none
  | .slti => if f.form = .rri then some (.slti f.ra f.rb f.imm) else none
  | .sltiu => if f.form = .rri then some (.sltiu f.ra f.rb f.imm) else none
  | .beq => if f.form = .rri then some (.beq f.ra f.rb f.imm) else none
  | .bne => if f.form = .rri then some (.bne f.ra f.rb f.imm) else none
  | .blt => if f.form = .rri then some (.blt f.ra f.rb f.imm) else none
  | .bgt => if f.form = .rri then some (.bgt f.ra f.rb f.imm) else none
  | .bgez => if f.form = .ra then some (.bgez f.ra f.imm) else none
  | .bgtz => if f.form = .ra then some (.bgtz f.ra f.imm) else none
  | .blez => if f.form = .ra then some (.blez f.ra f.imm) else none
  | .j => if f.form = .a then some (.j f.imm) else none
  | .jal => if f.form = .a then some (.jal f.imm) else none
  | .jr => if f.form = .r then some (.jr f.ra) else none
  | .jalr => if f.form = .r then some (.jalr f.ra) else none
  | .la => if f.form = .ra then some (.laDirect f.ra f.imm) else if f.form = .ri then some (.laIndirect f.ra f.rb f.imm) else none
  | .li => if f.form = .ra then some (.liDirect f.ra f.imm) else if f.form = .ri then some (.liIndirect f.ra f.rb f.imm) else none
  | .lhi => if f.form = .ra then some (.lhi f.ra f.imm) else none
  | .llo => if f.form = .ra then some (.llo f.ra f.imm) else none
  | .lb => if f.form = .ra then some (.lbDirect f.ra f.imm) else if f.form = .ri then some (.lbIndirect f.ra f.rb f.imm) else none
  | .lbu => if f.form = .ra then some (.lbuDirect f.ra f.imm) else if f.form = .ri then some (.lbuIndirect f.ra f.rb f.imm) else none
  | .lh => if f.form = .ra then some (.lhDirect f.ra f.imm) else if f.form = .ri then some (.lhIndirect f.ra f.rb f.imm) else none
  | .lhu => if f.form = .ra then some (.lhuDirect f.ra f.imm) else if f.form = .ri then some (.lhuIndirect f.ra f.rb f.imm) else none
  | .lw => if f.form = .ra then some (.lwDirect f.ra f.imm) else if f.form = .ri then some (.lwIndirect f.ra f.rb f.imm) else none
  | .sb => if f.form = .ra then some (.sbDirect f.ra f.imm) else if f.form = .ri then some (.sbIndirect f.ra f.rb f.imm) else none
  | .sh => if f.form = .ra then some (.shDirect f.ra f.imm) else if f.form = .ri then some (.shIndirect f.ra f.rb f.imm) else none
  | .sw => if f.form = .ra then some (.swDirect f.ra f.imm) else if f.form = .ri then some (.swIndirect f.ra f.rb f.imm) else none
  | .mfhi => if f.form = .r then some (.mfhi f.ra) else none
  | .mflo => if f.form = .r then some (.mflo f.ra) else none
  | .mthi => if f.form = .r then some (.mthi f.ra) else none
  | .mtlo => if f.form = .r then some (.mtlo f.ra) else none
  | .move => if f.form = .rr then some (.move f.ra f.rb) else none
  | .nop => if f.form = .nullary then some .nop else none
  | .syscall => if f.form = .nullary then some .syscall else none

/-- R68 and R72: the instruction of a record's fields, or the reason the record is illegal. -/
def ofFields (f : Fields) : Except DecodeError Instr :=
  match mnemonicOf f.op with
  | none => .error .reservedTag
  | some m =>
    if f.res ≠ 0 then .error .reservedBits
    else if f.unusedZero then
      match assemble m f with
      | none => .error .illegalForm
      | some i => if i.wf then .ok i else .error .operandRange
    else .error .unusedField

/-- `Decode(W)` (R72), with the legality check of R68: total on every 64-bit word. -/
def decode (w : Record) : Except DecodeError Instr := ofFields (unpack w)

/-- The record is legal (R68). -/
def legalRecord (w : Record) : Bool := (decode w).isOk

/-! ## The encoder -/

/-- The word of a record's fields (R62). -/
def pack (f : Fields) : Record :=
  BitVec.ofNat 64 (f.op.val + 2 ^ 8 * f.form.code + 2 ^ 11 * f.ra.val + 2 ^ 16 * f.rb.val
    + 2 ^ 21 * f.rc.val + 2 ^ 26 * f.res.val + 2 ^ 32 * f.imm.toNat)

/-- A record of form NONE. -/
def Fields.ofNullary (m : Mnemonic) : Fields := ⟨m.tag, .nullary, 0, 0, 0, 0, 0#32⟩
/-- A record of form R. -/
def Fields.ofR (m : Mnemonic) (ra : Reg) : Fields := ⟨m.tag, .r, ra, 0, 0, 0, 0#32⟩
/-- A record of form RR. -/
def Fields.ofRR (m : Mnemonic) (ra rb : Reg) : Fields := ⟨m.tag, .rr, ra, rb, 0, 0, 0#32⟩
/-- A record of form RRR. -/
def Fields.ofRRR (m : Mnemonic) (ra rb rc : Reg) : Fields := ⟨m.tag, .rrr, ra, rb, rc, 0, 0#32⟩
/-- A record of form RRI. -/
def Fields.ofRRI (m : Mnemonic) (ra rb : Reg) (imm : Word) : Fields := ⟨m.tag, .rri, ra, rb, 0, 0, imm⟩
/-- A record of form RA. -/
def Fields.ofRA (m : Mnemonic) (ra : Reg) (imm : Word) : Fields := ⟨m.tag, .ra, ra, 0, 0, 0, imm⟩
/-- A record of form RI: the base register is in rb. -/
def Fields.ofRI (m : Mnemonic) (ra rb : Reg) (imm : Word) : Fields := ⟨m.tag, .ri, ra, rb, 0, 0, imm⟩
/-- A record of form A. -/
def Fields.ofA (m : Mnemonic) (imm : Word) : Fields := ⟨m.tag, .a, 0, 0, 0, 0, imm⟩

/-- The record fields of an instruction (R65). -/
def Instr.fields : Instr → Fields
  | .add rd rs rt => .ofRRR .add rd rs rt
  | .addu rd rs rt => .ofRRR .addu rd rs rt
  | .addi rt rs imm => .ofRRI .addi rt rs imm
  | .addiu rt rs imm => .ofRRI .addiu rt rs imm
  | .and rd rs rt => .ofRRR .and rd rs rt
  | .andi rt rs imm => .ofRRI .andi rt rs imm
  | .or rd rs rt => .ofRRR .or rd rs rt
  | .ori rt rs imm => .ofRRI .ori rt rs imm
  | .xor rd rs rt => .ofRRR .xor rd rs rt
  | .xori rt rs imm => .ofRRI .xori rt rs imm
  | .nor rd rs rt => .ofRRR .nor rd rs rt
  | .sub rd rs rt => .ofRRR .sub rd rs rt
  | .subu rd rs rt => .ofRRR .subu rd rs rt
  | .div rs rt => .ofRR .div rs rt
  | .divu rs rt => .ofRR .divu rs rt
  | .mult rs rt => .ofRR .mult rs rt
  | .multu rs rt => .ofRR .multu rs rt
  | .mul rd rs rt => .ofRRR .mul rd rs rt
  | .mulu rd rs rt => .ofRRR .mulu rd rs rt
  | .remReg rd rs rt => .ofRRR .rem rd rs rt
  | .remImm rd rs imm => .ofRRI .rem rd rs imm
  | .sllReg rd rt rs => .ofRRR .sll rd rt rs
  | .sllImm rd rt sa => .ofRRI .sll rd rt sa
  | .srlReg rd rt rs => .ofRRR .srl rd rt rs
  | .srlImm rd rt sa => .ofRRI .srl rd rt sa
  | .sllv rd rt rs => .ofRRR .sllv rd rt rs
  | .srlv rd rt rs => .ofRRR .srlv rd rt rs
  | .sra rd rt sa => .ofRRI .sra rd rt sa
  | .srav rd rt rs => .ofRRR .srav rd rt rs
  | .slt rd rs rt => .ofRRR .slt rd rs rt
  | .sltu rd rs rt => .ofRRR .sltu rd rs rt
  | .slti rt rs imm => .ofRRI .slti rt rs imm
  | .sltiu rt rs imm => .ofRRI .sltiu rt rs imm
  | .beq rs rt target => .ofRRI .beq rs rt target
  | .bne rs rt target => .ofRRI .bne rs rt target
  | .blt rs rt target => .ofRRI .blt rs rt target
  | .bgt rs rt target => .ofRRI .bgt rs rt target
  | .bgez rs target => .ofRA .bgez rs target
  | .bgtz rs target => .ofRA .bgtz rs target
  | .blez rs target => .ofRA .blez rs target
  | .j target => .ofA .j target
  | .jal target => .ofA .jal target
  | .jr rs => .ofR .jr rs
  | .jalr rs => .ofR .jalr rs
  | .laDirect rt value => .ofRA .la rt value
  | .laIndirect rt base offset => .ofRI .la rt base offset
  | .liDirect rt value => .ofRA .li rt value
  | .liIndirect rt base offset => .ofRI .li rt base offset
  | .lhi rt value => .ofRA .lhi rt value
  | .llo rt value => .ofRA .llo rt value
  | .lbDirect rt address => .ofRA .lb rt address
  | .lbIndirect rt base offset => .ofRI .lb rt base offset
  | .lbuDirect rt address => .ofRA .lbu rt address
  | .lbuIndirect rt base offset => .ofRI .lbu rt base offset
  | .lhDirect rt address => .ofRA .lh rt address
  | .lhIndirect rt base offset => .ofRI .lh rt base offset
  | .lhuDirect rt address => .ofRA .lhu rt address
  | .lhuIndirect rt base offset => .ofRI .lhu rt base offset
  | .lwDirect rt address => .ofRA .lw rt address
  | .lwIndirect rt base offset => .ofRI .lw rt base offset
  | .sbDirect rt address => .ofRA .sb rt address
  | .sbIndirect rt base offset => .ofRI .sb rt base offset
  | .shDirect rt address => .ofRA .sh rt address
  | .shIndirect rt base offset => .ofRI .sh rt base offset
  | .swDirect rt address => .ofRA .sw rt address
  | .swIndirect rt base offset => .ofRI .sw rt base offset
  | .mfhi rd => .ofR .mfhi rd
  | .mflo rd => .ofR .mflo rd
  | .mthi rs => .ofR .mthi rs
  | .mtlo rs => .ofR .mtlo rs
  | .move rd rs => .ofRR .move rd rs
  | .nop => .ofNullary .nop
  | .syscall => .ofNullary .syscall

/-- The 64-bit record of an instruction (R62, R65). -/
def encode (i : Instr) : Record := pack i.fields

/-- The record word of `nbits` bits numbered as the opcode table numbers them. -/
def tableRecord (nbits w : Nat) : Record := BitVec.ofNat 64 (w % 2 ^ nbits)

/-- The instruction the decoder reads from an instruction whose bits are `w`. -/
def decodeTableWord (nbits w : Nat) : Option Instr := (decode (tableRecord nbits w)).toOption

end Sys2Proof
end

