-- ==== Sys2Proof/Config.lean ====
section
/-! DEFINITION. What is fixed for the engine (R6, R7) and its open parameters (R8): the stack size, the bounds of an image, RESET_REGS and SHIFT_WIDE. -/

namespace Sys2Proof

/-- The shifts a register amount can ask for (42_shift.md R130). -/
inductive ShiftKind where
  | sll | srl | sra
  deriving DecidableEq, Repr

/-- RESET_REGS, an open parameter: the reset values of the general registers and of HI and LO (R8, D9).
The entry for register 29 is not used (10_state.md R33). -/
structure ResetRegs where
  x  : Vector Word 32
  hi : Word
  lo : Word
  deriving DecidableEq, Repr

/-- STACK_SPACE, in bytes (R6). -/
def Config.stackSpace : Nat := 1048576

/-- The most instruction records an image may hold, `2^31 - 1` (R7, D33). -/
def Config.maxRecords : Nat := 2147483647

/-- The most bytes memory may have, `2^31` (R7, D33). -/
def Config.maxMemSize : Nat := 2147483648

/-- SHIFT_WIDE, an open parameter: the outcome of a register-amount shift of a value by `n >= 32`
(R8, R130, D16). `none` is `Fault`. It has no body: a statement about it holds whatever it is (log 4). -/
opaque Config.shiftWide : ShiftKind → Word → Nat → Option Word

/-- The stand-in for RESET_REGS that `State.reset` uses: DESIGN CHOICE, unsafe (log 1). -/
def Config.zeroRegs : ResetRegs := ⟨Vector.replicate 32 0#32, 0#32, 0#32⟩

end Sys2Proof
end

