-- ==== Sys2Proof/Machine/State.lean ====
section
/-! DEFINITION. The state of the engine (10_state.md), its run-time faults (R221), the reasons a step can stop, and the state after reset (R33, R250). -/

namespace Sys2Proof.Machine

/-- The run-time faults and their information (R221). `index` is R221's `at`: the index of the record
that raised the fault. -/
inductive RunFault where
  /-- Code 1, raised by the fetch of any step with pc at or above N (R223). -/
  | badOffset (pc : Word)
  /-- Code 2, raised by loads, stores and services 4 and 8 (R224): an access of `n` bytes at `a`. -/
  | memoryBounds (a : Int) (n : Nat) (index : Word)
  /-- Code 3, raised by syscall (R225). -/
  | noSuchService (v : Nat) (index : Word)
  /-- Code 4, raised by services 5 and 12 at end of input (R226). -/
  | endOfInput (service : Nat) (index : Word)
  /-- Code 5, raised by div, divu and rem (R227). -/
  | divideByZero (index : Word)
  /-- Code 6, raised by a register-amount shift of 32 or more (R228). -/
  | shiftWide (n : Nat) (index : Word)
  /-- Code 7, raised by service 5 (R229). -/
  | badInput (service : Nat) (index : Word)
  deriving DecidableEq, Repr

/-- The run status (R31). -/
inductive Status where
  | running
  | exited (code : Word)
  | faulted (f : RunFault)
  deriving DecidableEq, Repr

/-- Data memory: (address, byte) pairs, in the canonical form `Memory.wf` (log 9). -/
abbrev Memory := List Host.Cell

/-- The state of the engine, and the console's input and output, which its steps read and write. -/
structure State where
  /-- The general registers `x[0..31]` (R20). -/
  regs       : Vector Word 32
  /-- The special register HI (R25). -/
  hi         : Word
  /-- The special register LO (R25). -/
  lo         : Word
  /-- The program counter, an index into `prog` (R26). -/
  pc         : Word
  /-- Data memory (R29). -/
  mem        : Memory
  /-- MEMSIZE, the number of bytes of data memory (R7, R29); DLEN is `State.dlen`. -/
  memSize    : Nat
  /-- The instruction sequence `Prog[0 .. N-1]` (R30). -/
  prog       : List Record
  /-- The run status (R31). -/
  status     : Status
  /-- The console input not read yet; the empty list is end of input (R210). -/
  consoleIn  : List Byte
  /-- The console's output log, oldest byte first (R210). -/
  consoleOut : List Byte
  deriving DecidableEq, Repr

/-- Why the machine stops with a fault. -/
inductive Fault where
  /-- Raised by a step that raises one of R221's faults. `final` is the state R222 defines, with status
  `Faulted(f)`. Safe: the spec ends the run here (log 5). -/
  | raised (f : RunFault) (final : State)
  deriving DecidableEq, Repr

/-- Why the machine has no step, or an image is not loaded. -/
inductive Refusal where
  /-- Raised by `exec` for an instruction with no meaning yet. Safe. -/
  | notModelled (mnemonic : String)
  /-- Raised by `step` in a state that is not Running: a halted engine takes no step (R71, R241).
  Safe (log 6). -/
  | halted (status : Status)
  /-- Raised by `load` for an image that holds an illegal record (R250, R231), and by `step` for an
  illegal record at pc, in a state no load makes. Safe (log 7). -/
  | illegalRecord (index : Nat) (w : Record)
  /-- Raised by `load` for an image of more than `2^31 - 1` records (R250). Safe. -/
  | tooManyRecords (n : Nat)
  /-- Raised by `load` for an image with more than `2^31` bytes of memory (R250). Safe. -/
  | memoryTooLarge (size : Nat)
  deriving DecidableEq, Repr

/-- The state right after the load of the empty image (R250, R33): pc 0, every memory byte 0, status
Running, `x[29] = w32(MEMSIZE)`. The other registers, HI and LO hold the stand-in of log 1; no
program is loaded (log 2) and the console input is empty (log 3). -/
def State.reset : State where
  regs       := Config.zeroRegs.x.set 29 (w32 (Config.stackSpace : Int))
  hi         := Config.zeroRegs.hi
  lo         := Config.zeroRegs.lo
  pc         := 0#32
  mem        := []
  memSize    := Config.stackSpace
  prog       := []
  status     := .running
  consoleIn  := []
  consoleOut := []

end Sys2Proof.Machine
end

