-- ==== Sys2Proof/Machine/Memory.lean ====
section
/-! DEFINITION. Bytes of data memory: reading, writing, the canonical form, little-endian values (20_memory.md R45, R46). -/

namespace Sys2Proof.Machine

/-- What an address that is not listed reads as: `0x00` (R33). -/
def Memory.unlisted : Byte := 0#8

/-- The byte at address `a`. -/
def Memory.read : Memory → Nat → Byte
  | [], _ => Memory.unlisted
  | (k, b) :: m, a => if k = a then b else Memory.read m a

/-- Memory after the byte at address `a` becomes `v`, in canonical form. -/
def Memory.write : Memory → Nat → Byte → Memory
  | [], a, v => if v = Memory.unlisted then [] else [(a, v)]
  | (k, b) :: m, a, v =>
    if a < k then
      if v = Memory.unlisted then (k, b) :: m else (a, v) :: (k, b) :: m
    else if a = k then
      if v = Memory.unlisted then m else (a, v) :: m
    else (k, b) :: Memory.write m a v

/-- Canonical form from address `lo` on: addresses at or above `lo`, strictly rising, and no entry
equal to what an unlisted address reads as. -/
def Memory.wfFrom : Nat → Memory → Bool
  | _, [] => true
  | lo, (k, b) :: m => decide (lo ≤ k) && (b != Memory.unlisted) && Memory.wfFrom (k + 1) m

/-- The canonical form: addresses strictly rising, no entry equal to the unlisted byte. -/
def Memory.wf (m : Memory) : Bool := Memory.wfFrom 0 m

/-- Every listed address is below `size`. -/
def Memory.below (m : Memory) (size : Nat) : Bool := m.all (fun c => decide (c.1 < size))

/-- The `n` bytes from address `a` up. -/
def Memory.readBytes (m : Memory) : Nat → Nat → List Byte
  | _, 0 => []
  | a, n + 1 => Memory.read m a :: Memory.readBytes m (a + 1) n

/-- Memory after the bytes `bs` are written from address `a` up. -/
def Memory.writeBytes (m : Memory) : Nat → List Byte → Memory
  | _, [] => m
  | a, b :: bs => Memory.writeBytes (Memory.write m a b) (a + 1) bs

/-- The unsigned value of bytes in little-endian order, the first byte lowest (R45). -/
def leValue : List Byte → Nat
  | [] => 0
  | b :: bs => b.toNat + 256 * leValue bs

/-- The low `n` bytes of a word in little-endian order (R46). -/
def leBytes : Nat → Word → List Byte
  | 0, _ => []
  | n + 1, v => v.setWidth 8 :: leBytes n (v >>> 8)

/-- Memory that holds the data buffer `bs` from address `a` up and `0x00` elsewhere (R33). -/
def Memory.ofData : Nat → List Byte → Memory
  | _, [] => []
  | a, b :: bs =>
    if b = Memory.unlisted then Memory.ofData (a + 1) bs else (a, b) :: Memory.ofData (a + 1) bs

end Sys2Proof.Machine
end

