-- ==== Sys2Proof/Machine/Ops.lean ====
section
/-! DEFINITION. The named operations the meanings share: registers, program counter, raising a fault (R222), memory access with its bounds check (R44 to R46), fetch (R71). -/

namespace Sys2Proof.Machine

/-- What a step or a meaning answers. -/
abbrev Result := Host.Outcome State Fault Refusal

/-! ## Registers -/

/-- `x[i]`: no register is hardwired (R22). -/
def State.reg (s : State) (i : Reg) : Word := s.regs.get i

/-- `x[i] <- v` (R22). -/
def State.setReg (s : State) (i : Reg) (v : Word) : State := { s with regs := s.regs.set i.val v i.isLt }

/-- `HI <- v` (R25). -/
def State.setHi (s : State) (v : Word) : State := { s with hi := v }

/-- `LO <- v` (R25). -/
def State.setLo (s : State) (v : Word) : State := { s with lo := v }

/-- The link register of jal and jalr, `$ra` (R24, D5). -/
def linkReg : Reg := 31

/-- The stack pointer, `$sp` (R24, D6). -/
def stackReg : Reg := 29

/-- The register of the service number and of every service's result, `$v0` (R24, D7). -/
def serviceReg : Reg := 2

/-- The first argument register of a service, `$a0` (R24, D7). -/
def argReg : Reg := 4

/-- The second argument register of a service, `$a1` (R24, D7). -/
def arg2Reg : Reg := 5

/-- Data memory becomes `m`. -/
def State.setMem (s : State) (m : Memory) : State := { s with mem := m }

/-- The run status becomes `st` (R31). -/
def State.setStatus (s : State) (st : Status) : State := { s with status := st }

/-- The instruction completes with `x[rd] <- v` and nothing else. -/
def writeReg (rd : Reg) (v : Word) (s : State) : Result := .next (s.setReg rd v)

/-! ## Program counter and program -/

/-- `pc <- t`. -/
def State.setPc (s : State) (t : Word) : State := { s with pc := t }

/-- `pc <- w32(u(pc) + 1)`, the advance of a step (R71). -/
def State.advance (s : State) : State := s.setPc (w32 (uval s.pc + 1))

/-- `Prog[u(pc)]`; none when pc is not below N (R71). -/
def State.fetch (s : State) : Option Record := s.prog[s.pc.toNat]?

/-- The index of the executing record, `pc - 1` after the advance (R221, log 12). -/
def State.index (s : State) : Word := s.pc - 1#32

/-! ## Ending a run -/

/-- `raise f`: the status becomes `Faulted(f)` and no further state changes (R222). -/
def raise (f : RunFault) (s : State) : Result := .fault (.raised f (s.setStatus (.faulted f)))

/-- The numeric code of a fault (R221). -/
def RunFault.code : RunFault → Nat
  | .badOffset _ => 1
  | .memoryBounds _ _ _ => 2
  | .noSuchService _ _ => 3
  | .endOfInput _ _ => 4
  | .divideByZero _ => 5
  | .shiftWide _ _ => 6
  | .badInput _ _ => 7

/-- `status <- Exited(code)` (R206). -/
def State.exit (s : State) (code : Word) : State := s.setStatus (.exited code)

/-! ## Memory access -/

/-- DLEN, the length of the data segment: `MEMSIZE = DLEN + STACK_SPACE` (R7). -/
def State.dlen (s : State) : Nat := s.memSize - Config.stackSpace

/-- An access of `n` bytes at `a` is in bounds (R44). -/
def State.inBounds (s : State) (a : Int) (n : Nat) : Bool := decide (0 ≤ a ∧ a + (n : Int) ≤ (s.memSize : Int))

/-- The byte at address `a`. -/
def State.byteAt (s : State) (a : Nat) : Byte := Memory.read s.mem a

/-- `MemRead(a, n)` (R45); none when it raises `MemoryBounds(a, n)`. -/
def State.memRead (s : State) (a : Int) (n : Nat) : Option Nat :=
  if s.inBounds a n then some (leValue (Memory.readBytes s.mem a.toNat n)) else none

/-- The bytes `bs` go to memory from `a` up (R46); none when this raises `MemoryBounds(a, length bs)`. -/
def State.memWrite (s : State) (a : Int) (bs : List Byte) : Option State :=
  if s.inBounds a bs.length then some (s.setMem (Memory.writeBytes s.mem a.toNat bs)) else none

/-- A load: `x[rt]` becomes the widened value of `n` bytes at `a`, or MemoryBounds is raised (R180). -/
def loadInto (rt : Reg) (a : Int) (n : Nat) (widen : Nat → Word) (s : State) : Result :=
  match s.memRead a n with
  | some v => writeReg rt (widen v) s
  | none => raise (.memoryBounds a n s.index) s

/-- A store: the low `n` bytes of `v` go to memory at `a`, or MemoryBounds is raised (R180). -/
def storeAt (a : Int) (n : Nat) (v : Word) (s : State) : Result :=
  match s.memWrite a (leBytes n v) with
  | some t => .next t
  | none => raise (.memoryBounds a n s.index) s

end Sys2Proof.Machine
end

