-- ==== Sys2Proof/Machine/Operands.lean ====
section
/-! DEFINITION. Operand readings: the five readings of an immediate (R66), extension (00_scope.md §5) and effective addresses (R180). -/

namespace Sys2Proof.Machine

/-! ## Immediates (R66). The readings "signed" and "pattern" are `sval imm` and `imm` itself. -/

/-- Reading "shift amount": `u(imm)`. -/
def immAmount (sa : Word) : Nat := sa.toNat

/-- Reading "half": `imm[15:0]`. -/
def immHalf (value : Word) : BitVec 16 := value.extractLsb' 0 16

/-- Reading "address/index": `u(imm)` as a non-negative integer. -/
def immAddress (address : Word) : Int := uval address

/-! ## Extension (00_scope.md §5) -/

/-- `sext_N(v)`: the N-bit value `v` sign-extended to a word. -/
def sext (n : Nat) (v : Nat) : Word := (BitVec.ofNat n v).signExtend 32

/-- `zext_N(v)`: the N-bit value `v` zero-extended to a word. -/
def zext (n : Nat) (v : Nat) : Word := (BitVec.ofNat n v).setWidth 32

/-! ## Effective addresses (R180) -/

/-- The direct mode, form RA: `a = u(imm)`. -/
def directAddress (address : Word) : Int := immAddress address

/-- The indirect mode, form RI: `a = u(x[base]) + s(imm)`, a mathematical integer (D12). -/
def indirectAddress (base : Reg) (offset : Word) (s : State) : Int := uval (s.reg base) + sval offset

/-- The sum of la and li in form RI: 32-bit wraparound (R67, R170). -/
def wrappedSum (base : Reg) (offset : Word) (s : State) : Word := w32 (uval (s.reg base) + sval offset)

end Sys2Proof.Machine
end

