-- ==== Sys2Proof/Machine/Arith.lean ====
section
/-! DEFINITION. Arithmetic and logic instructions (40_arith_logic.md). -/

namespace Sys2Proof.Machine

/-- R100: `x[rd] <- w32(s(x[rs]) + s(x[rt]))`. -/
def execAdd (rd rs rt : Reg) (s : State) : Result := writeReg rd (w32 (sval (s.reg rs) + sval (s.reg rt))) s

/-- R101: `x[rd] <- w32(u(x[rs]) + u(x[rt]))`. -/
def execAddu (rd rs rt : Reg) (s : State) : Result := writeReg rd (w32 (uval (s.reg rs) + uval (s.reg rt))) s

/-- R102: `x[rt] <- w32(s(x[rs]) + s(imm))`. -/
def execAddi (rt rs : Reg) (imm : Word) (s : State) : Result := writeReg rt (w32 (sval (s.reg rs) + sval imm)) s

/-- R103: `x[rt] <- w32(u(x[rs]) + u(imm))`. -/
def execAddiu (rt rs : Reg) (imm : Word) (s : State) : Result := writeReg rt (w32 (uval (s.reg rs) + uval imm)) s

/-- R104: `x[rd] <- x[rs] & x[rt]`. -/
def execAnd (rd rs rt : Reg) (s : State) : Result := writeReg rd (s.reg rs &&& s.reg rt) s

/-- R105: `x[rt] <- x[rs] & imm`, all 32 bits of imm (D18). -/
def execAndi (rt rs : Reg) (imm : Word) (s : State) : Result := writeReg rt (s.reg rs &&& imm) s

/-- R106: `x[rd] <- x[rs] | x[rt]`. -/
def execOr (rd rs rt : Reg) (s : State) : Result := writeReg rd (s.reg rs ||| s.reg rt) s

/-- R107: `x[rt] <- x[rs] | imm`, all 32 bits of imm (D18). -/
def execOri (rt rs : Reg) (imm : Word) (s : State) : Result := writeReg rt (s.reg rs ||| imm) s

/-- R108: `x[rd] <- x[rs] ^ x[rt]`. -/
def execXor (rd rs rt : Reg) (s : State) : Result := writeReg rd (s.reg rs ^^^ s.reg rt) s

/-- R109: `x[rt] <- x[rs] ^ imm`, all 32 bits of imm (D18). -/
def execXori (rt rs : Reg) (imm : Word) (s : State) : Result := writeReg rt (s.reg rs ^^^ imm) s

/-- R110: `x[rd] <- ~(x[rs] | x[rt])`. -/
def execNor (rd rs rt : Reg) (s : State) : Result := writeReg rd (~~~(s.reg rs ||| s.reg rt)) s

/-- R111: `x[rd] <- w32(s(x[rs]) - s(x[rt]))`. -/
def execSub (rd rs rt : Reg) (s : State) : Result := writeReg rd (w32 (sval (s.reg rs) - sval (s.reg rt))) s

/-- R112: `x[rd] <- w32(u(x[rs]) - u(x[rt]))`. -/
def execSubu (rd rs rt : Reg) (s : State) : Result := writeReg rd (w32 (uval (s.reg rs) - uval (s.reg rt))) s

end Sys2Proof.Machine
end

