-- ==== Sys2Proof/Machine/Flags.lean ====
section
/-! DEFINITION. The engine has no flags (R27). What other machines leave in flags it computes where it is used: the conditions of comparisons and branches, which stand here. -/

namespace Sys2Proof.Machine

/-- `s(a) < s(b)`. -/
def ltSigned (a b : Word) : Bool := decide (sval a < sval b)

/-- `u(a) < u(b)`. -/
def ltUnsigned (a b : Word) : Bool := decide (uval a < uval b)

/-- `s(a) > s(b)`. -/
def gtSigned (a b : Word) : Bool := decide (sval a > sval b)

/-- `s(a) >= 0`. -/
def geZero (a : Word) : Bool := decide (sval a ≥ 0)

/-- `s(a) > 0`. -/
def gtZero (a : Word) : Bool := decide (sval a > 0)

/-- `s(a) <= 0`. -/
def leZero (a : Word) : Bool := decide (sval a ≤ 0)

/-- The result of a comparison: exactly 0 or 1 (43_compare.md). -/
def boolWord (c : Bool) : Word := if c then 1#32 else 0#32

end Sys2Proof.Machine
end

