-- ==== Sys2Proof/Machine/Branch.lean ====
section
/-! DEFINITION. Branch instructions (44_branch.md). -/

namespace Sys2Proof.Machine

/-- R150: when the condition holds `pc <- imm`, an absolute index that is not checked here; when it
fails pc keeps the step's advance. Nothing else is written. -/
def branchIf (c : Bool) (target : Word) (s : State) : Result := .next (if c then s.setPc target else s)

/-- R151. -/
def execBeq (rs rt : Reg) (target : Word) (s : State) : Result := branchIf (s.reg rs == s.reg rt) target s

/-- R152. -/
def execBne (rs rt : Reg) (target : Word) (s : State) : Result := branchIf (s.reg rs != s.reg rt) target s

/-- R153. -/
def execBlt (rs rt : Reg) (target : Word) (s : State) : Result := branchIf (ltSigned (s.reg rs) (s.reg rt)) target s

/-- R154. -/
def execBgt (rs rt : Reg) (target : Word) (s : State) : Result := branchIf (gtSigned (s.reg rs) (s.reg rt)) target s

/-- R155. -/
def execBgez (rs : Reg) (target : Word) (s : State) : Result := branchIf (geZero (s.reg rs)) target s

/-- R156. -/
def execBgtz (rs : Reg) (target : Word) (s : State) : Result := branchIf (gtZero (s.reg rs)) target s

/-- R157. -/
def execBlez (rs : Reg) (target : Word) (s : State) : Result := branchIf (leZero (s.reg rs)) target s

end Sys2Proof.Machine
end

