-- ==== Sys2Proof/Machine/Compare.lean ====
section
/-! DEFINITION. Comparison instructions (43_compare.md). -/

namespace Sys2Proof.Machine

/-- R140: `x[rd] <- (s(x[rs]) < s(x[rt])) ? 1 : 0`. -/
def execSlt (rd rs rt : Reg) (s : State) : Result := writeReg rd (boolWord (ltSigned (s.reg rs) (s.reg rt))) s

/-- R141: `x[rd] <- (u(x[rs]) < u(x[rt])) ? 1 : 0`. -/
def execSltu (rd rs rt : Reg) (s : State) : Result := writeReg rd (boolWord (ltUnsigned (s.reg rs) (s.reg rt))) s

/-- R142: `x[rt] <- (s(x[rs]) < s(imm)) ? 1 : 0`. -/
def execSlti (rt rs : Reg) (imm : Word) (s : State) : Result := writeReg rt (boolWord (ltSigned (s.reg rs) imm)) s

/-- R143: `x[rt] <- (u(x[rs]) < u(imm)) ? 1 : 0`. -/
def execSltiu (rt rs : Reg) (imm : Word) (s : State) : Result := writeReg rt (boolWord (ltUnsigned (s.reg rs) imm)) s

end Sys2Proof.Machine
end

