-- ==== Sys2Proof/Machine/Jump.lean ====
section
/-! DEFINITION. Jump instructions (45_jump.md). `s.pc` is already the index after the jump (R71). -/

namespace Sys2Proof.Machine

/-- R160: `pc <- imm`. -/
def execJ (target : Word) (s : State) : Result := .next (s.setPc target)

/-- R161: `x[31] <- pc; pc <- imm`. -/
def execJal (target : Word) (s : State) : Result := .next ((s.setReg linkReg s.pc).setPc target)

/-- R162: `pc <- x[rs]`. -/
def execJr (rs : Reg) (s : State) : Result := .next (s.setPc (s.reg rs))

/-- R163: `t <- x[rs]; x[31] <- pc; pc <- t` (D23). -/
def execJalr (rs : Reg) (s : State) : Result :=
  let t := s.reg rs
  .next ((s.setReg linkReg s.pc).setPc t)

end Sys2Proof.Machine
end

