-- ==== Sys2Proof/Machine/LoadImmediate.lean ====
section
/-! DEFINITION. Load-immediate and address instructions (46_load_immediate.md). -/

namespace Sys2Proof.Machine

/-- R170, form RA: `x[rt] <- imm`. -/
def execLaDirect (rt : Reg) (value : Word) (s : State) : Result := writeReg rt value s

/-- R170, form RI: `x[rt] <- w32(u(x[base]) + s(imm))`. -/
def execLaIndirect (rt base : Reg) (offset : Word) (s : State) : Result := writeReg rt (wrappedSum base offset s) s

/-- R171, form RA: the same operation as la. -/
def execLiDirect (rt : Reg) (value : Word) (s : State) : Result := writeReg rt value s

/-- R171, form RI: the same operation as la. -/
def execLiIndirect (rt base : Reg) (offset : Word) (s : State) : Result := writeReg rt (wrappedSum base offset s) s

/-- R172: `x[rt] <- imm[15:0] ++ x[rt][15:0]`. -/
def execLhi (rt : Reg) (value : Word) (s : State) : Result :=
  writeReg rt (immHalf value ++ (s.reg rt).extractLsb' 0 16) s

/-- R173: `x[rt] <- x[rt][31:16] ++ imm[15:0]`. -/
def execLlo (rt : Reg) (value : Word) (s : State) : Result :=
  writeReg rt ((s.reg rt).extractLsb' 16 16 ++ immHalf value) s

end Sys2Proof.Machine
end

