-- ==== Sys2Proof/Machine/LoadStore.lean ====
section
/-! DEFINITION. Load and store instructions (47_load_store.md): direct form `rt, address` and indirect form `rt, offset(base)`. -/

namespace Sys2Proof.Machine

/-! ## Loads: what each makes of the bytes it reads -/

/-- R181: the byte sign-extended. -/
def widenLb (v : Nat) : Word := sext 8 v

/-- R182: the byte zero-extended. -/
def widenLbu (v : Nat) : Word := zext 8 v

/-- R183: the halfword sign-extended. -/
def widenLh (v : Nat) : Word := sext 16 v

/-- R184: the halfword zero-extended. -/
def widenLhu (v : Nat) : Word := zext 16 v

/-- R185: the word itself. -/
def widenLw (v : Nat) : Word := BitVec.ofNat 32 v

/-- R181, form RA. -/
def execLbDirect (rt : Reg) (address : Word) (s : State) : Result :=
  loadInto rt (directAddress address) 1 widenLb s

/-- R181, form RI. -/
def execLbIndirect (rt base : Reg) (offset : Word) (s : State) : Result :=
  loadInto rt (indirectAddress base offset s) 1 widenLb s

/-- R182, form RA. -/
def execLbuDirect (rt : Reg) (address : Word) (s : State) : Result :=
  loadInto rt (directAddress address) 1 widenLbu s

/-- R182, form RI. -/
def execLbuIndirect (rt base : Reg) (offset : Word) (s : State) : Result :=
  loadInto rt (indirectAddress base offset s) 1 widenLbu s

/-- R183, form RA. -/
def execLhDirect (rt : Reg) (address : Word) (s : State) : Result :=
  loadInto rt (directAddress address) 2 widenLh s

/-- R183, form RI. -/
def execLhIndirect (rt base : Reg) (offset : Word) (s : State) : Result :=
  loadInto rt (indirectAddress base offset s) 2 widenLh s

/-- R184, form RA. -/
def execLhuDirect (rt : Reg) (address : Word) (s : State) : Result :=
  loadInto rt (directAddress address) 2 widenLhu s

/-- R184, form RI. -/
def execLhuIndirect (rt base : Reg) (offset : Word) (s : State) : Result :=
  loadInto rt (indirectAddress base offset s) 2 widenLhu s

/-- R185, form RA. -/
def execLwDirect (rt : Reg) (address : Word) (s : State) : Result :=
  loadInto rt (directAddress address) 4 widenLw s

/-- R185, form RI. -/
def execLwIndirect (rt base : Reg) (offset : Word) (s : State) : Result :=
  loadInto rt (indirectAddress base offset s) 4 widenLw s

/-! ## Stores: the low bytes of the source register -/

/-- R186, form RA. -/
def execSbDirect (rt : Reg) (address : Word) (s : State) : Result :=
  storeAt (directAddress address) 1 (s.reg rt) s

/-- R186, form RI. -/
def execSbIndirect (rt base : Reg) (offset : Word) (s : State) : Result :=
  storeAt (indirectAddress base offset s) 1 (s.reg rt) s

/-- R187, form RA. -/
def execShDirect (rt : Reg) (address : Word) (s : State) : Result :=
  storeAt (directAddress address) 2 (s.reg rt) s

/-- R187, form RI. -/
def execShIndirect (rt base : Reg) (offset : Word) (s : State) : Result :=
  storeAt (indirectAddress base offset s) 2 (s.reg rt) s

/-- R188, form RA. -/
def execSwDirect (rt : Reg) (address : Word) (s : State) : Result :=
  storeAt (directAddress address) 4 (s.reg rt) s

/-- R188, form RI. -/
def execSwIndirect (rt base : Reg) (offset : Word) (s : State) : Result :=
  storeAt (indirectAddress base offset s) 4 (s.reg rt) s

end Sys2Proof.Machine
end

