-- ==== Sys2Proof/Machine/Move.lean ====
section
/-! DEFINITION. Register move instructions (48_move.md). -/

namespace Sys2Proof.Machine

/-- R190: `x[rd] <- HI`. -/
def execMfhi (rd : Reg) (s : State) : Result := writeReg rd s.hi s

/-- R191: `x[rd] <- LO`. -/
def execMflo (rd : Reg) (s : State) : Result := writeReg rd s.lo s

/-- R192: `HI <- x[rs]`. -/
def execMthi (rs : Reg) (s : State) : Result := .next (s.setHi (s.reg rs))

/-- R193: `LO <- x[rs]`. -/
def execMtlo (rs : Reg) (s : State) : Result := .next (s.setLo (s.reg rs))

/-- R194: `x[rd] <- x[rs]`. -/
def execMove (rd rs : Reg) (s : State) : Result := writeReg rd (s.reg rs) s

end Sys2Proof.Machine
end

