-- ==== Sys2Proof/Machine/MulDiv.lean ====
section
/-! DEFINITION. Multiply, divide and remainder instructions (41_muldiv_rem.md). -/

namespace Sys2Proof.Machine

/-- `tdiv(a, b)`: the quotient rounded toward zero (00_scope.md §5). -/
def tdiv (a b : Int) : Int := Int.tdiv a b

/-- `trem(a, b) = a - b * tdiv(a, b)` (00_scope.md §5, D15). -/
def trem (a b : Int) : Int := a - b * tdiv a b

/-- `LO <- w32(tdiv(a, b)); HI <- w32(trem(a, b))`, or DivideByZero when `b = 0` (R120, R121, D14). -/
def divideInto (a b : Int) (s : State) : Result :=
  if b = 0 then raise (.divideByZero s.index) s
  else .next ((s.setLo (w32 (tdiv a b))).setHi (w32 (trem a b)))

/-- `HI <- w32(floor(p / 2^32)); LO <- w32(p)` (R122, R123). -/
def productInto (p : Int) (s : State) : Result :=
  .next ((s.setHi (w32 (Int.fdiv p 4294967296))).setLo (w32 p))

/-- `x[rd] <- w32(trem(a, b))`, or DivideByZero when `b = 0` (R126, D14). -/
def remainderInto (rd : Reg) (a b : Int) (s : State) : Result :=
  if b = 0 then raise (.divideByZero s.index) s else writeReg rd (w32 (trem a b)) s

/-- R120: signed division. -/
def execDiv (rs rt : Reg) (s : State) : Result := divideInto (sval (s.reg rs)) (sval (s.reg rt)) s

/-- R121: unsigned division. -/
def execDivu (rs rt : Reg) (s : State) : Result := divideInto (uval (s.reg rs)) (uval (s.reg rt)) s

/-- R122: signed 64-bit product. -/
def execMult (rs rt : Reg) (s : State) : Result := productInto (sval (s.reg rs) * sval (s.reg rt)) s

/-- R123: unsigned 64-bit product. -/
def execMultu (rs rt : Reg) (s : State) : Result := productInto (uval (s.reg rs) * uval (s.reg rt)) s

/-- R124: `x[rd] <- w32(s(x[rs]) * s(x[rt]))`. -/
def execMul (rd rs rt : Reg) (s : State) : Result := writeReg rd (w32 (sval (s.reg rs) * sval (s.reg rt))) s

/-- R125: `x[rd] <- w32(u(x[rs]) * u(x[rt]))`. -/
def execMulu (rd rs rt : Reg) (s : State) : Result := writeReg rd (w32 (uval (s.reg rs) * uval (s.reg rt))) s

/-- R126, form RRR: signed remainder by a register. -/
def execRemReg (rd rs rt : Reg) (s : State) : Result := remainderInto rd (sval (s.reg rs)) (sval (s.reg rt)) s

/-- R126, form RRI: signed remainder by a literal. -/
def execRemImm (rd rs : Reg) (imm : Word) (s : State) : Result := remainderInto rd (sval (s.reg rs)) (sval imm) s

end Sys2Proof.Machine
end

