-- ==== Sys2Proof/Machine/Shift.lean ====
section
/-! DEFINITION. Shift instructions (42_shift.md). -/

namespace Sys2Proof.Machine

/-- The exact result of a shift by `n` in 0..31: `v << n`, `v >>u n` or `v >>s n` (00_scope.md §5). -/
def shifted (kind : ShiftKind) (v : Word) (n : Nat) : Word :=
  match kind with
  | .sll => v <<< n
  | .srl => v >>> n
  | .sra => v.sshiftRight n

/-- `if n <= 31 then x[rd] <- shifted value else WIDE(kind)` (R130): for `n >= 32` the outcome is
SHIFT_WIDE's, a word for rd or the fault ShiftWide (log 4). -/
def shiftInto (kind : ShiftKind) (rd : Reg) (v : Word) (n : Nat) (s : State) : Result :=
  if n ≤ 31 then writeReg rd (shifted kind v n) s
  else
    match Config.shiftWide kind v n with
    | some w => writeReg rd w s
    | none => raise (.shiftWide n s.index) s

/-- R131, form RRR: the amount is all 32 bits of `x[rs]` (D17). -/
def execSllReg (rd rt rs : Reg) (s : State) : Result := shiftInto .sll rd (s.reg rt) (s.reg rs).toNat s

/-- R131, form RRI: a literal amount. -/
def execSllImm (rd rt : Reg) (sa : Word) (s : State) : Result := shiftInto .sll rd (s.reg rt) (immAmount sa) s

/-- R132, form RRR. -/
def execSrlReg (rd rt rs : Reg) (s : State) : Result := shiftInto .srl rd (s.reg rt) (s.reg rs).toNat s

/-- R132, form RRI. -/
def execSrlImm (rd rt : Reg) (sa : Word) (s : State) : Result := shiftInto .srl rd (s.reg rt) (immAmount sa) s

/-- R133. -/
def execSllv (rd rt rs : Reg) (s : State) : Result := shiftInto .sll rd (s.reg rt) (s.reg rs).toNat s

/-- R134. -/
def execSrlv (rd rt rs : Reg) (s : State) : Result := shiftInto .srl rd (s.reg rt) (s.reg rs).toNat s

/-- R135: `x[rd] <- x[rt] >>s n`; a legal record has `n <= 31`. -/
def execSra (rd rt : Reg) (sa : Word) (s : State) : Result := writeReg rd (shifted .sra (s.reg rt) (immAmount sa)) s

/-- R136. -/
def execSrav (rd rt rs : Reg) (s : State) : Result := shiftInto .sra rd (s.reg rt) (s.reg rs).toNat s

end Sys2Proof.Machine
end

