-- ==== Sys2Proof/Machine/Console.lean ====
section
/-! DEFINITION. The console's four requests (R210) and the text of integers (R202, R204). -/

namespace Sys2Proof.Machine

/-! ## The requests. A read gives the bytes it removes and the input that is left. -/

/-- The newline byte, 0x0A (R210). -/
def newline : Byte := 0x0A#8

/-- `ConWrite(bs)`: the bytes go to the end of the output log. -/
def State.conWrite (s : State) (bs : List Byte) : State := { s with consoleOut := s.consoleOut ++ bs }

/-- The input left after a read. -/
def State.setInput (s : State) (rest : List Byte) : State := { s with consoleIn := rest }

/-- The bytes up to and including the next newline, or all of them if there is none, and the rest. -/
def takeLine : List Byte → List Byte × List Byte
  | [] => ([], [])
  | b :: bs => if b = newline then ([b], bs) else (b :: (takeLine bs).1, (takeLine bs).2)

/-- `ConReadLine()`; none is EOF. -/
def conReadLine (input : List Byte) : Option (List Byte × List Byte) :=
  if input = [] then none else some (takeLine input)

/-- `ConReadUpTo(n)`: bytes until there are `n`, a newline was just read, or the input ends. -/
def conReadUpTo : List Byte → Nat → List Byte × List Byte
  | [], _ => ([], [])
  | b :: bs, n =>
    if n = 0 then ([], b :: bs)
    else if b = newline then ([b], bs)
    else (b :: (conReadUpTo bs (n - 1)).1, (conReadUpTo bs (n - 1)).2)

/-- `ConReadByte()`; none is EOF. -/
def conReadByte (input : List Byte) : Option (Byte × List Byte) :=
  match input with
  | [] => none
  | b :: bs => some (b, bs)

/-! ## Integers as text -/

/-- The ASCII digit of `d`, for `d` below 10. -/
def digitByte (d : Nat) : Byte := BitVec.ofNat 8 (48 + d)

/-- The decimal digits of `n`, no leading zeros, before `acc`; `fuel` bounds the number of digits. -/
def decDigits : Nat → Nat → List Byte → List Byte
  | 0, _, acc => acc
  | fuel + 1, n, acc =>
    if n < 10 then digitByte n :: acc else decDigits fuel (n / 10) (digitByte (n % 10) :: acc)

/-- `dec(n)` (R202): a `-` if `n` is negative, then the digits. Ten digits hold every 32-bit integer. -/
def dec (n : Int) : List Byte :=
  if n < 0 then 0x2D#8 :: decDigits 10 n.natAbs [] else decDigits 10 n.natAbs []

/-- ASCII whitespace (R204): tab, newline, vertical tab, form feed, carriage return, space (log 8). -/
def isSpace (b : Byte) : Bool := (decide (9 ≤ b.toNat) && decide (b.toNat ≤ 13)) || b == 0x20#8

/-- The text without leading and trailing ASCII whitespace. -/
def trim (t : List Byte) : List Byte := ((t.dropWhile isSpace).reverse.dropWhile isSpace).reverse

/-- The value of an ASCII digit. -/
def digitValue (b : Byte) : Option Nat :=
  if 48 ≤ b.toNat ∧ b.toNat ≤ 57 then some (b.toNat - 48) else none

/-- The value of a digit string read after the value `acc`; none if a byte is no digit. -/
def digitsValue : List Byte → Nat → Option Nat
  | [], acc => some acc
  | b :: bs, acc =>
    match digitValue b with
    | none => none
    | some d => digitsValue bs (10 * acc + d)

/-- The value of text that matches `[0-9]+`. -/
def unsignedValue (t : List Byte) : Option Nat := if t = [] then none else digitsValue t 0

/-- The value of text that matches `[+-]?[0-9]+` (R204). -/
def signedValue : List Byte → Option Int
  | [] => none
  | b :: bs =>
    if b = 0x2B#8 then (unsignedValue bs).map (fun n : Nat => (n : Int))
    else if b = 0x2D#8 then (unsignedValue bs).map (fun n : Nat => -(n : Int))
    else (unsignedValue (b :: bs)).map (fun n : Nat => (n : Int))

/-- The integer of a line (R204): none if its trimmed text is no integer or is outside
`-2^31 .. 2^31-1`. -/
def lineInteger (line : List Byte) : Option Int :=
  match signedValue (trim line) with
  | none => none
  | some n => if -2147483648 ≤ n ∧ n ≤ 2147483647 then some n else none

end Sys2Proof.Machine
end

