-- ==== Sys2Proof/Machine/System.lean ====
section
/-! DEFINITION. nop, syscall and its seven services (49_system.md). -/

namespace Sys2Proof.Machine

/-- R200: only the step's advance of pc happens. -/
def execNop (s : State) : Result := .next s

/-- R202, service 1: `ConWrite(dec(s(x[4])))`. -/
def servicePrintInteger (s : State) : Result := .next (s.conWrite (dec (sval (s.reg argReg))))

/-- The bytes from address `a` up to the next zero byte, of `fuel` bytes in memory; none when there is
no zero byte among them. -/
def stringBytes (m : Memory) : Nat → Nat → Option (List Byte)
  | 0, _ => none
  | fuel + 1, a =>
    if Memory.read m a = 0#8 then some []
    else
      match stringBytes m fuel (a + 1) with
      | none => none
      | some bs => some (Memory.read m a :: bs)

/-- R203, service 4: the string at `x[4]` is read to its zero byte and then written. The bytes that can
be read are the `MEMSIZE - a` bytes from `a`; the first address past them faults. -/
def servicePrintString (s : State) : Result :=
  let a := (s.reg argReg).toNat
  match stringBytes s.mem (s.memSize - a) a with
  | some bs => .next (s.conWrite bs)
  | none => raise (.memoryBounds (max a s.memSize : Nat) 1 s.index) s

/-- R204, service 5: one line is consumed; its integer goes to `x[2]`. -/
def serviceReadInteger (s : State) : Result :=
  match conReadLine s.consoleIn with
  | none => raise (.endOfInput 5 s.index) s
  | some (line, rest) =>
    match lineInteger line with
    | none => raise (.badInput 5 s.index) (s.setInput rest)
    | some n => .next ((s.setInput rest).setReg serviceReg (w32 n))

/-- What service 8 reads: nothing when `n <= 0`, else `ConReadUpTo(n)` (R205). -/
def readAtMost (input : List Byte) (n : Int) : List Byte × List Byte :=
  if n ≤ 0 then ([], input) else conReadUpTo input n.toNat

/-- R205, service 8: the bytes read go to memory at `x[4]` and their number to `x[2]`. -/
def serviceReadBytes (s : State) : Result :=
  let a := uval (s.reg argReg)
  let got := readAtMost s.consoleIn (sval (s.reg arg2Reg))
  let s' := s.setInput got.2
  if got.1 = [] then .next (s'.setReg serviceReg (w32 0))
  else
    match s'.memWrite a got.1 with
    | some t => .next (t.setReg serviceReg (w32 (got.1.length : Int)))
    | none => raise (.memoryBounds a got.1.length s.index) s'

/-- R206, service 10: `status <- Exited(x[4])`. -/
def serviceExit (s : State) : Result := .next (s.exit (s.reg argReg))

/-- R207, service 11: `ConWrite([x[4][7:0]])`. -/
def servicePrintCharacter (s : State) : Result := .next (s.conWrite [(s.reg argReg).extractLsb' 0 8])

/-- R208, service 12: one byte goes, zero-extended, to `x[2]`. -/
def serviceReadCharacter (s : State) : Result :=
  match conReadByte s.consoleIn with
  | none => raise (.endOfInput 12 s.index) s
  | some (b, rest) => .next ((s.setInput rest).setReg serviceReg (zext 8 b.toNat))

/-- R201: the service of the number in `x[2]`; NoSuchService for any other number (R209). -/
def execSyscall (s : State) : Result :=
  let v := (s.reg serviceReg).toNat
  if v = 1 then servicePrintInteger s
  else if v = 4 then servicePrintString s
  else if v = 5 then serviceReadInteger s
  else if v = 8 then serviceReadBytes s
  else if v = 10 then serviceExit s
  else if v = 11 then servicePrintCharacter s
  else if v = 12 then serviceReadCharacter s
  else raise (.noSuchService v s.index) s

end Sys2Proof.Machine
end

