-- ==== Sys2Proof/Machine/Dispatch.lean ====
section
/-! DEFINITION. `Execute` (R71, R72): one arm for each instruction, run with pc already advanced. -/

namespace Sys2Proof.Machine

def exec (i : Instr) (s : State) : Host.Outcome State Fault Refusal :=
  match i with
  -- Arithmetic and logic (40_arith_logic.md)
  | .add rd rs rt => Sys2Proof.Machine.execAdd rd rs rt s
  | .addu rd rs rt => Sys2Proof.Machine.execAddu rd rs rt s
  | .addi rt rs imm => Sys2Proof.Machine.execAddi rt rs imm s
  | .addiu rt rs imm => Sys2Proof.Machine.execAddiu rt rs imm s
  | .and rd rs rt => Sys2Proof.Machine.execAnd rd rs rt s
  | .andi rt rs imm => Sys2Proof.Machine.execAndi rt rs imm s
  | .or rd rs rt => Sys2Proof.Machine.execOr rd rs rt s
  | .ori rt rs imm => Sys2Proof.Machine.execOri rt rs imm s
  | .xor rd rs rt => Sys2Proof.Machine.execXor rd rs rt s
  | .xori rt rs imm => Sys2Proof.Machine.execXori rt rs imm s
  | .nor rd rs rt => Sys2Proof.Machine.execNor rd rs rt s
  | .sub rd rs rt => Sys2Proof.Machine.execSub rd rs rt s
  | .subu rd rs rt => Sys2Proof.Machine.execSubu rd rs rt s
  -- Multiply, divide and remainder (41_muldiv_rem.md)
  | .div rs rt => Sys2Proof.Machine.execDiv rs rt s
  | .divu rs rt => Sys2Proof.Machine.execDivu rs rt s
  | .mult rs rt => Sys2Proof.Machine.execMult rs rt s
  | .multu rs rt => Sys2Proof.Machine.execMultu rs rt s
  | .mul rd rs rt => Sys2Proof.Machine.execMul rd rs rt s
  | .mulu rd rs rt => Sys2Proof.Machine.execMulu rd rs rt s
  | .remReg rd rs rt => Sys2Proof.Machine.execRemReg rd rs rt s
  | .remImm rd rs imm => Sys2Proof.Machine.execRemImm rd rs imm s
  -- Shifts (42_shift.md)
  | .sllReg rd rt rs => Sys2Proof.Machine.execSllReg rd rt rs s
  | .sllImm rd rt sa => Sys2Proof.Machine.execSllImm rd rt sa s
  | .srlReg rd rt rs => Sys2Proof.Machine.execSrlReg rd rt rs s
  | .srlImm rd rt sa => Sys2Proof.Machine.execSrlImm rd rt sa s
  | .sllv rd rt rs => Sys2Proof.Machine.execSllv rd rt rs s
  | .srlv rd rt rs => Sys2Proof.Machine.execSrlv rd rt rs s
  | .sra rd rt sa => Sys2Proof.Machine.execSra rd rt sa s
  | .srav rd rt rs => Sys2Proof.Machine.execSrav rd rt rs s
  -- Comparisons (43_compare.md)
  | .slt rd rs rt => Sys2Proof.Machine.execSlt rd rs rt s
  | .sltu rd rs rt => Sys2Proof.Machine.execSltu rd rs rt s
  | .slti rt rs imm => Sys2Proof.Machine.execSlti rt rs imm s
  | .sltiu rt rs imm => Sys2Proof.Machine.execSltiu rt rs imm s
  -- Branches (44_branch.md)
  | .beq rs rt target => Sys2Proof.Machine.execBeq rs rt target s
  | .bne rs rt target => Sys2Proof.Machine.execBne rs rt target s
  | .blt rs rt target => Sys2Proof.Machine.execBlt rs rt target s
  | .bgt rs rt target => Sys2Proof.Machine.execBgt rs rt target s
  | .bgez rs target => Sys2Proof.Machine.execBgez rs target s
  | .bgtz rs target => Sys2Proof.Machine.execBgtz rs target s
  | .blez rs target => Sys2Proof.Machine.execBlez rs target s
  -- Jumps (45_jump.md)
  | .j target => Sys2Proof.Machine.execJ target s
  | .jal target => Sys2Proof.Machine.execJal target s
  | .jr rs => Sys2Proof.Machine.execJr rs s
  | .jalr rs => Sys2Proof.Machine.execJalr rs s
  -- Load-immediate and address (46_load_immediate.md)
  | .laDirect rt value => Sys2Proof.Machine.execLaDirect rt value s
  | .laIndirect rt base offset => Sys2Proof.Machine.execLaIndirect rt base offset s
  | .liDirect rt value => Sys2Proof.Machine.execLiDirect rt value s
  | .liIndirect rt base offset => Sys2Proof.Machine.execLiIndirect rt base offset s
  | .lhi rt value => Sys2Proof.Machine.execLhi rt value s
  | .llo rt value => Sys2Proof.Machine.execLlo rt value s
  -- Loads and stores (47_load_store.md)
  | .lbDirect rt address => Sys2Proof.Machine.execLbDirect rt address s
  | .lbIndirect rt base offset => Sys2Proof.Machine.execLbIndirect rt base offset s
  | .lbuDirect rt address => Sys2Proof.Machine.execLbuDirect rt address s
  | .lbuIndirect rt base offset => Sys2Proof.Machine.execLbuIndirect rt base offset s
  | .lhDirect rt address => Sys2Proof.Machine.execLhDirect rt address s
  | .lhIndirect rt base offset => Sys2Proof.Machine.execLhIndirect rt base offset s
  | .lhuDirect rt address => Sys2Proof.Machine.execLhuDirect rt address s
  | .lhuIndirect rt base offset => Sys2Proof.Machine.execLhuIndirect rt base offset s
  | .lwDirect rt address => Sys2Proof.Machine.execLwDirect rt address s
  | .lwIndirect rt base offset => Sys2Proof.Machine.execLwIndirect rt base offset s
  | .sbDirect rt address => Sys2Proof.Machine.execSbDirect rt address s
  | .sbIndirect rt base offset => Sys2Proof.Machine.execSbIndirect rt base offset s
  | .shDirect rt address => Sys2Proof.Machine.execShDirect rt address s
  | .shIndirect rt base offset => Sys2Proof.Machine.execShIndirect rt base offset s
  | .swDirect rt address => Sys2Proof.Machine.execSwDirect rt address s
  | .swIndirect rt base offset => Sys2Proof.Machine.execSwIndirect rt base offset s
  -- Register moves (48_move.md)
  | .mfhi rd => Sys2Proof.Machine.execMfhi rd s
  | .mflo rd => Sys2Proof.Machine.execMflo rd s
  | .mthi rs => Sys2Proof.Machine.execMthi rs s
  | .mtlo rs => Sys2Proof.Machine.execMtlo rs s
  | .move rd rs => Sys2Proof.Machine.execMove rd rs s
  -- No-operation and syscall (49_system.md)
  | .nop => Sys2Proof.Machine.execNop s
  | .syscall => Sys2Proof.Machine.execSyscall s

end Sys2Proof.Machine
end

