-- ==== Sys2Proof/Machine/Image.lean ====
section
/-! DEFINITION. The load of a program image (R250): the engine's reset, with RESET_REGS and CONSOLE_IN as arguments (R8). -/

namespace Sys2Proof.Machine

/-- A program image: an instruction sequence and a data buffer (R250). -/
structure Image where
  records : List Record
  data    : List Byte
  deriving DecidableEq, Repr

/-- The first illegal record of a sequence, with its index; `i` is the index of the first record. -/
def firstIllegal : Nat → List Record → Option (Nat × Record)
  | _, [] => none
  | i, w :: ws => if legalRecord w then firstIllegal (i + 1) ws else some (i, w)

/-- The state of R33 for an image. -/
def loadedState (r : ResetRegs) (img : Image) (input : List Byte) : State where
  regs       := r.x.set 29 (w32 ((img.data.length + Config.stackSpace : Nat) : Int))
  hi         := r.hi
  lo         := r.lo
  pc         := 0#32
  mem        := Memory.ofData 0 img.data
  memSize    := img.data.length + Config.stackSpace
  prog       := img.records
  status     := .running
  consoleIn  := input
  consoleOut := []

/-- R250: the state after the load, or the refusal of the image. The order of the checks is log 10. -/
def load (r : ResetRegs) (img : Image) (input : List Byte) : Result :=
  if img.records.length > Config.maxRecords then .refused (.tooManyRecords img.records.length)
  else if img.data.length + Config.stackSpace > Config.maxMemSize then
    .refused (.memoryTooLarge (img.data.length + Config.stackSpace))
  else
    match firstIllegal 0 img.records with
    | some (i, w) => .refused (.illegalRecord i w)
    | none => .next (loadedState r img input)

end Sys2Proof.Machine
end

