-- ==== Sys2Proof/Machine/Step.lean ====
section
/-! DEFINITION. One step of the engine (R71), and the placing of an instruction where the next step fetches. -/

namespace Sys2Proof.Machine

/-- R71: while Running, `if not (u(pc) < N) then raise BadOffset(pc); r <- Prog[u(pc)];
pc <- w32(u(pc) + 1); Execute(Decode(r))`. A halted engine takes no step (log 6). A record that is
illegal is refused by name; no loaded image holds one (R72, log 7). -/
def step (s : State) : Host.Outcome State Fault Refusal :=
  match s.status with
  | .running =>
    match s.fetch with
    | none => raise (.badOffset s.pc) s
    | some w =>
      match decode w with
      | .error _ => .refused (.illegalRecord s.pc.toNat w)
      | .ok i => exec i s.advance
  | .exited code => .refused (.halted (.exited code))
  | .faulted f => .refused (.halted (.faulted f))

/-- The program with the record `w` at index `k`, with `nop` records up to `k` if it is shorter. -/
def placeRecord (prog : List Record) (k : Nat) (w : Record) : List Record :=
  if k < prog.length then prog.set k w
  else prog ++ List.replicate (k - prog.length) (encode .nop) ++ [w]

/-- The state with the record of the table word `w` at index pc of the program, and Running, so that
the next step runs it (log 2). -/
def State.withFetchWord (s : State) (nbits w : Nat) : State :=
  { s with prog := placeRecord s.prog s.pc.toNat (tableRecord nbits w), status := .running }

end Sys2Proof.Machine
end

