-- ==== Sys2Proof/Safety.lean ====
section
/-! DEFINITION. The invariant of a loaded engine, and what counts as a safe step of a run. -/

namespace Sys2Proof.Machine

/-- What holds of every state a load makes and every step keeps: memory is in canonical form and lists
no address at or above MEMSIZE; the program has at most `2^31 - 1` records, all legal (R68, R250);
memory holds the stack region and has at most `2^31` bytes (R7). -/
structure State.Inv (s : State) : Prop where
  memCanonical : Memory.wf s.mem = true
  memBelow     : Memory.below s.mem s.memSize = true
  hasStack     : Config.stackSpace ≤ s.memSize
  memSizeBound : s.memSize ≤ Config.maxMemSize
  progBound    : s.prog.length ≤ Config.maxRecords
  progLegal    : ∀ w ∈ s.prog, legalRecord w = true

/-- The run goes on from `s`: it is Running and its next step raises no fault and is not refused. -/
def State.Safe (s : State) : Prop := s.status = .running ∧ ∃ t, step s = .next t

end Sys2Proof.Machine
end

