-- ==== Sys2Proof/Certificates/Slice0/Obligations.lean ====
section
/-! DEFINITION. The statements for the provers. First the words they are written in: what an instruction leaves unchanged, what completing and faulting mean, and the record words of R62; then the statements. -/

namespace Sys2Proof.Machine

/-! ## What is unchanged from `s` to `t` -/

/-- Every general register is unchanged. -/
def KeepsRegs (s t : State) : Prop := ∀ r, t.reg r = s.reg r

/-- HI and LO are unchanged. -/
def KeepsHiLo (s t : State) : Prop := t.hi = s.hi ∧ t.lo = s.lo

/-- Every byte of memory reads as before. -/
def KeepsMemory (s t : State) : Prop := ∀ a, t.byteAt a = s.byteAt a

/-- The console's input and output are unchanged. -/
def KeepsConsole (s t : State) : Prop := t.consoleIn = s.consoleIn ∧ t.consoleOut = s.consoleOut

/-- The program and the size of memory are unchanged. -/
def KeepsImage (s t : State) : Prop := t.prog = s.prog ∧ t.memSize = s.memSize

/-- `x[rd]` becomes `v` and nothing else changes. -/
def WritesReg (s t : State) (rd : Reg) (v : Word) : Prop :=
  (∀ r, t.reg r = if r = rd then v else s.reg r) ∧ KeepsHiLo s t ∧ t.pc = s.pc ∧ t.status = s.status ∧
    KeepsMemory s t ∧ KeepsConsole s t ∧ KeepsImage s t

/-- HI and LO become `hi` and `lo` and nothing else changes. -/
def WritesHiLo (s t : State) (hi lo : Word) : Prop :=
  KeepsRegs s t ∧ t.hi = hi ∧ t.lo = lo ∧ t.pc = s.pc ∧ t.status = s.status ∧
    KeepsMemory s t ∧ KeepsConsole s t ∧ KeepsImage s t

/-- pc becomes `p` and nothing else changes. -/
def SetsPc (s t : State) (p : Word) : Prop :=
  KeepsRegs s t ∧ KeepsHiLo s t ∧ t.pc = p ∧ t.status = s.status ∧
    KeepsMemory s t ∧ KeepsConsole s t ∧ KeepsImage s t

/-- The `n` bytes from `a` up become `byte 0, byte 1, …`; every byte outside them reads as before; no
register, pc, status, console or program changes. -/
def WritesBytes (s t : State) (a n : Nat) (byte : Nat → Byte) : Prop :=
  (∀ k, k < n → t.byteAt (a + k) = byte k) ∧ (∀ b, b < a ∨ a + n ≤ b → t.byteAt b = s.byteAt b) ∧
    KeepsRegs s t ∧ KeepsHiLo s t ∧ t.pc = s.pc ∧ t.status = s.status ∧ KeepsConsole s t ∧ KeepsImage s t

/-- The output log grows by `bs` and nothing else changes. -/
def Prints (s t : State) (bs : List Byte) : Prop :=
  t.consoleOut = s.consoleOut ++ bs ∧ t.consoleIn = s.consoleIn ∧ KeepsRegs s t ∧ KeepsHiLo s t ∧
    t.pc = s.pc ∧ t.status = s.status ∧ KeepsMemory s t ∧ KeepsImage s t

/-- The input left is `rest`, `x[2]` becomes `v` and nothing else changes. -/
def ReadsInto (s t : State) (rest : List Byte) (v : Word) : Prop :=
  t.consoleIn = rest ∧ t.consoleOut = s.consoleOut ∧ (∀ r, t.reg r = if r = 2 then v else s.reg r) ∧
    KeepsHiLo s t ∧ t.pc = s.pc ∧ t.status = s.status ∧ KeepsMemory s t ∧ KeepsImage s t

/-! ## Completing and faulting -/

/-- The instruction answers a next state, and `P` holds of it. -/
def Completes (i : Instr) (s : State) (P : State → Prop) : Prop := ∃ t, exec i s = .next t ∧ P t

/-- The instruction raises `f`, the input left is `rest`, and nothing else but the status changes. -/
def FaultsReading (i : Instr) (s : State) (f : RunFault) (rest : List Byte) : Prop :=
  ∃ t, exec i s = .fault (.raised f t) ∧ t.status = .faulted f ∧ KeepsRegs s t ∧ KeepsHiLo s t ∧ t.pc = s.pc ∧
    KeepsMemory s t ∧ t.consoleIn = rest ∧ t.consoleOut = s.consoleOut ∧ KeepsImage s t

/-- The instruction raises `f`, and nothing but the status changes. -/
def Faults (i : Instr) (s : State) (f : RunFault) : Prop := FaultsReading i s f s.consoleIn

/-! ## Record words and the shapes of instruction rules. The encodings are R62, R64 and R65 (the spec's
own decisions D1 to D3). -/

/-- The record word with the given tag, form code, register fields and immediate (R62). -/
def recordWord (tag form : Nat) (ra rb rc : Reg) (imm : Word) : Record :=
  BitVec.ofNat 64 (tag + form * 2 ^ 8 + ra.val * 2 ^ 11 + rb.val * 2 ^ 16 + rc.val * 2 ^ 21 + imm.toNat * 2 ^ 32)

/-- Form RRR: the record decodes to the instruction, which completes with `f` of its two sources in the
first register and nothing else changed. -/
def ThreeRegisterRule (mk : Reg → Reg → Reg → Instr) (tag : Nat) (f : Word → Word → Word) : Prop :=
  ∀ (rd rs rt : Reg) (s : State), decode (recordWord tag 3 rd rs rt 0) = .ok (mk rd rs rt) ∧
    Completes (mk rd rs rt) s (fun t => WritesReg s t rd (f (s.reg rs) (s.reg rt)))

/-- Form RRI: the same with the immediate as the second source. -/
def ImmediateRule (mk : Reg → Reg → Word → Instr) (tag : Nat) (f : Word → Word → Word) : Prop :=
  ∀ (rt rs : Reg) (imm : Word) (s : State), decode (recordWord tag 4 rt rs 0 imm) = .ok (mk rt rs imm) ∧
    Completes (mk rt rs imm) s (fun t => WritesReg s t rt (f (s.reg rs) imm))

/-- Form RR into HI and LO: `hi` and `lo` of the two sources. -/
def ProductRule (mk : Reg → Reg → Instr) (tag : Nat) (p : Word → Word → Int) : Prop :=
  ∀ (rs rt : Reg) (s : State), decode (recordWord tag 2 rs rt 0 0) = .ok (mk rs rt) ∧
    Completes (mk rs rt) s (fun t =>
      WritesHiLo s t (w32 (Int.floor ((p (s.reg rs) (s.reg rt) : Rat) / 2 ^ 32))) (w32 (p (s.reg rs) (s.reg rt))))

/-- A division into HI (remainder) and LO (quotient), or DivideByZero. -/
def DivisionRule (mk : Reg → Reg → Instr) (tag : Nat) (read : Word → Int) : Prop :=
  ∀ (rs rt : Reg) (s : State), decode (recordWord tag 2 rs rt 0 0) = .ok (mk rs rt) ∧
    (read (s.reg rt) ≠ 0 → Completes (mk rs rt) s (fun t =>
      WritesHiLo s t
        (w32 (read (s.reg rs) - read (s.reg rt) * Int.tdiv (read (s.reg rs)) (read (s.reg rt))))
        (w32 (Int.tdiv (read (s.reg rs)) (read (s.reg rt)))))) ∧
    (read (s.reg rt) = 0 → Faults (mk rs rt) s (.divideByZero s.index))

/-- A remainder of `a` by `b` into `rd`, or DivideByZero. -/
def RemainderOf (i : Instr) (s : State) (rd : Reg) (a b : Int) : Prop :=
  (b ≠ 0 → Completes i s (fun t => WritesReg s t rd (w32 (a - b * Int.tdiv a b)))) ∧
  (b = 0 → Faults i s (.divideByZero s.index))

/-- A shift by a register amount: all 32 bits of it; the exact result up to 31, SHIFT_WIDE's outcome
from 32 on (R130). -/
def RegisterShiftRule (mk : Reg → Reg → Reg → Instr) (tag : Nat) (kind : ShiftKind) (f : Word → Nat → Word) : Prop :=
  ∀ (rd rt rs : Reg) (s : State), decode (recordWord tag 3 rd rt rs 0) = .ok (mk rd rt rs) ∧
    ((s.reg rs).toNat ≤ 31 →
      Completes (mk rd rt rs) s (fun t => WritesReg s t rd (f (s.reg rt) (s.reg rs).toNat))) ∧
    (32 ≤ (s.reg rs).toNat →
      match Config.shiftWide kind (s.reg rt) (s.reg rs).toNat with
      | some w => Completes (mk rd rt rs) s (fun t => WritesReg s t rd w)
      | none => Faults (mk rd rt rs) s (.shiftWide (s.reg rs).toNat s.index))

/-- A shift by a literal amount: exact for 0..31; a record with a larger amount is illegal. -/
def LiteralShiftRule (mk : Reg → Reg → Word → Instr) (tag : Nat) (f : Word → Nat → Word) : Prop :=
  ∀ (rd rt : Reg) (sa : Word) (s : State),
    (sa.toNat ≤ 31 → decode (recordWord tag 4 rd rt 0 sa) = .ok (mk rd rt sa) ∧
      Completes (mk rd rt sa) s (fun t => WritesReg s t rd (f (s.reg rt) sa.toNat))) ∧
    (32 ≤ sa.toNat → legalRecord (recordWord tag 4 rd rt 0 sa) = false)

/-- A branch on two registers: to its target when the condition holds, else pc as it is. -/
def TwoRegisterBranchRule (mk : Reg → Reg → Word → Instr) (tag : Nat) (c : Word → Word → Prop) : Prop :=
  ∀ (rs rt : Reg) (target : Word) (s : State), decode (recordWord tag 4 rs rt 0 target) = .ok (mk rs rt target) ∧
    (c (s.reg rs) (s.reg rt) → Completes (mk rs rt target) s (fun t => SetsPc s t target)) ∧
    (¬c (s.reg rs) (s.reg rt) → Completes (mk rs rt target) s (fun t => SetsPc s t s.pc))

/-- A branch that compares a register with zero. -/
def ZeroBranchRule (mk : Reg → Word → Instr) (tag : Nat) (c : Word → Prop) : Prop :=
  ∀ (rs : Reg) (target : Word) (s : State), decode (recordWord tag 5 rs 0 0 target) = .ok (mk rs target) ∧
    (c (s.reg rs) → Completes (mk rs target) s (fun t => SetsPc s t target)) ∧
    (¬c (s.reg rs) → Completes (mk rs target) s (fun t => SetsPc s t s.pc))

/-- If pc of a Running `t` is not below N, its next step raises BadOffset. -/
def FetchChecked (t : State) : Prop :=
  t.status = .running → t.prog.length ≤ t.pc.toNat →
    ∃ u, step t = .fault (.raised (.badOffset t.pc) u)

/-- A jump: pc becomes `target`, unchecked until the next fetch, and nothing else changes. -/
def JumpsTo (s t : State) (target : Word) : Prop := SetsPc s t target ∧ FetchChecked t

/-- A jump that links: `x[31]` becomes the advanced pc of `s` and pc becomes `target`. -/
def LinksAndJumpsTo (s t : State) (target : Word) : Prop :=
  (∀ r, t.reg r = if r = 31 then s.pc else s.reg r) ∧ KeepsHiLo s t ∧ t.pc = target ∧ t.status = s.status ∧
    KeepsMemory s t ∧ KeepsConsole s t ∧ KeepsImage s t ∧ FetchChecked t

/-- A load of `n` bytes at the integer address `a`: `value` of the bytes there, or MemoryBounds. -/
def LoadsAt (i : Instr) (s : State) (rt : Reg) (a : Int) (n : Nat) (value : State → Nat → Word) : Prop :=
  (0 ≤ a ∧ a + (n : Int) ≤ (s.memSize : Int) →
    Completes i s (fun t => WritesReg s t rt (value s a.toNat))) ∧
  (a < 0 ∨ (s.memSize : Int) < a + (n : Int) → Faults i s (.memoryBounds a n s.index))

/-- Both forms of a load: at `u(imm)` and at `u(x[base]) + s(imm)`, any alignment, no wraparound. -/
def LoadRule (direct : Reg → Word → Instr) (indirect : Reg → Reg → Word → Instr) (tag n : Nat)
    (value : State → Nat → Word) : Prop :=
  (∀ (rt : Reg) (address : Word) (s : State),
    decode (recordWord tag 5 rt 0 0 address) = .ok (direct rt address) ∧
      LoadsAt (direct rt address) s rt (uval address) n value) ∧
  (∀ (rt base : Reg) (offset : Word) (s : State),
    decode (recordWord tag 6 rt base 0 offset) = .ok (indirect rt base offset) ∧
      LoadsAt (indirect rt base offset) s rt (uval (s.reg base) + sval offset) n value)

/-- A store of the low `n` bytes of `v` at the integer address `a`, or MemoryBounds. -/
def StoresAt (i : Instr) (s : State) (a : Int) (n : Nat) (v : Word) : Prop :=
  (0 ≤ a ∧ a + (n : Int) ≤ (s.memSize : Int) →
    Completes i s (fun t => WritesBytes s t a.toNat n (fun k => v.extractLsb' (8 * k) 8))) ∧
  (a < 0 ∨ (s.memSize : Int) < a + (n : Int) → Faults i s (.memoryBounds a n s.index))

/-- Both forms of a store, in memory of canonical form. -/
def StoreRule (direct : Reg → Word → Instr) (indirect : Reg → Reg → Word → Instr) (tag n : Nat) : Prop :=
  (∀ (rt : Reg) (address : Word) (s : State), Memory.wf s.mem = true →
    decode (recordWord tag 5 rt 0 0 address) = .ok (direct rt address) ∧
      StoresAt (direct rt address) s (uval address) n (s.reg rt)) ∧
  (∀ (rt base : Reg) (offset : Word) (s : State), Memory.wf s.mem = true →
    decode (recordWord tag 6 rt base 0 offset) = .ok (indirect rt base offset) ∧
      StoresAt (indirect rt base offset) s (uval (s.reg base) + sval offset) n (s.reg rt))

/-- Both forms of la and li. -/
def LoadAddressRule (direct : Reg → Word → Instr) (indirect : Reg → Reg → Word → Instr) (tag : Nat) : Prop :=
  (∀ (rt : Reg) (value : Word) (s : State),
    decode (recordWord tag 5 rt 0 0 value) = .ok (direct rt value) ∧
      Completes (direct rt value) s (fun t => WritesReg s t rt value)) ∧
  (∀ (rt base : Reg) (offset : Word) (s : State),
    decode (recordWord tag 6 rt base 0 offset) = .ok (indirect rt base offset) ∧
      Completes (indirect rt base offset) s (fun t => WritesReg s t rt (w32 (uval (s.reg base) + sval offset))))

/-- lhi or llo: `f` of the old register and the value's low half, for a value in `-2^15 .. 2^16-1`; a
record with another value is illegal. -/
def HalfRule (mk : Reg → Word → Instr) (tag : Nat) (f : Word → BitVec 16 → Word) : Prop :=
  ∀ (rt : Reg) (value : Word) (s : State),
    (-2 ^ 15 ≤ value.toInt ∧ value.toInt ≤ 2 ^ 16 - 1 →
      decode (recordWord tag 5 rt 0 0 value) = .ok (mk rt value) ∧
      Completes (mk rt value) s (fun t => WritesReg s t rt (f (s.reg rt) (value.extractLsb' 0 16)))) ∧
    (value.toInt < -2 ^ 15 ∨ 2 ^ 16 - 1 < value.toInt → legalRecord (recordWord tag 5 rt 0 0 value) = false)

/-! ## Text and input -/

/-- The value of a list of decimal digits, the first the most significant. -/
def digitsToNat (ds : List Nat) : Nat := ds.foldl (fun v d => 10 * v + d) 0

/-- `text` is the ASCII decimal text of `n` (R202): a `-` sign if `n` is negative, then the digits with
no leading zeros, `0` for zero. -/
def IsDecimalText (n : Int) (text : List Byte) : Prop :=
  ∃ ds : List Nat, (∀ d ∈ ds, d < 10) ∧ ds ≠ [] ∧ (ds.head? = some 0 → ds = [0]) ∧ digitsToNat ds = n.natAbs ∧
    text = (if n < 0 then [0x2D#8] else []) ++ ds.map (fun d => BitVec.ofNat 8 (48 + d))

/-- `text` matches `[+-]?[0-9]+` and has the value `n` (R204). -/
def IsIntegerText (n : Int) (text : List Byte) : Prop :=
  ∃ (sign : List Byte) (ds : List Nat), (∀ d ∈ ds, d < 10) ∧ ds ≠ [] ∧
    text = sign ++ ds.map (fun d => BitVec.ofNat 8 (48 + d)) ∧
    (((sign = [] ∨ sign = [0x2B#8]) ∧ n = (digitsToNat ds : Int)) ∨ (sign = [0x2D#8] ∧ n = -(digitsToNat ds : Int)))

/-- `line` is `text` between ASCII whitespace (R204, log 8), `text` an integer `n` of 32 bits. -/
def LineReadsAs (line : List Byte) (n : Int) : Prop :=
  ∃ before text after, line = before ++ text ++ after ∧ (∀ b ∈ before, isSpace b = true) ∧
    (∀ b ∈ after, isSpace b = true) ∧ IsIntegerText n text ∧ -2 ^ 31 ≤ n ∧ n ≤ 2 ^ 31 - 1

/-- `line` is what ConReadLine removes from `input` and `rest` what it leaves (R210). -/
def IsFirstLine (input line rest : List Byte) : Prop :=
  input = line ++ rest ∧ line ≠ [] ∧
    ((∃ body, line = body ++ [0x0A#8] ∧ 0x0A#8 ∉ body) ∨ (0x0A#8 ∉ line ∧ rest = []))

/-- `got` is what ConReadUpTo(n), for `n >= 1`, removes from `input` and `rest` what it leaves (R210). -/
def IsReadUpTo (input : List Byte) (n : Nat) (got rest : List Byte) : Prop :=
  input = got ++ rest ∧ got.length ≤ n ∧ (∀ k, k + 1 < got.length → got[k]? ≠ some 0x0A#8) ∧
    (got.length = n ∨ got.getLast? = some 0x0A#8 ∨ rest = [])

/-! ## Legal records (R68), from the bits of the word -/

/-- R65: the codes of the legal forms of a tag. -/
def legalForms (tag : Nat) : List Nat :=
  if tag ∈ [1, 2, 5, 7, 9, 11, 12, 13, 18, 19, 23, 24, 26, 27, 28] then [3]
  else if tag ∈ [3, 4, 6, 8, 10, 25, 29, 30, 31, 32, 33, 34] then [4]
  else if tag ∈ [14, 15, 16, 17, 58] then [2]
  else if tag ∈ [20, 21, 22] then [3, 4]
  else if tag ∈ [35, 36, 37, 44, 45] then [5]
  else if tag ∈ [38, 39] then [7]
  else if tag ∈ [40, 41, 54, 55, 56, 57] then [1]
  else if tag ∈ [42, 43, 46, 47, 48, 49, 50, 51, 52, 53] then [5, 6]
  else if tag ∈ [59, 60] then [0]
  else []

/-- R68 (a) to (f), read off the bits of the word (R62, R63). -/
def LegalWord (w : Record) : Prop :=
  let op := (w.extractLsb' 0 8).toNat
  let form := (w.extractLsb' 8 3).toNat
  let imm := w.extractLsb' 32 32
  (1 ≤ op ∧ op ≤ 60) ∧ form ∈ legalForms op ∧ w.extractLsb' 26 6 = 0#6 ∧
  (form ∈ [0, 7] → w.extractLsb' 11 5 = 0#5) ∧
  (form ∈ [0, 1, 5, 7] → w.extractLsb' 16 5 = 0#5) ∧
  (form ≠ 3 → w.extractLsb' 21 5 = 0#5) ∧
  (form ∈ [0, 1, 2, 3] → imm = 0#32) ∧
  (op = 25 ∨ (op = 21 ∨ op = 22) ∧ form = 4 → imm.toNat ≤ 31) ∧
  (op = 44 ∨ op = 45 → -2 ^ 15 ≤ imm.toInt ∧ imm.toInt ≤ 2 ^ 16 - 1)

/-! ## Kinds of instructions -/

/-- The loads and stores of 47_load_store.md. -/
def isLoadOrStore : Instr → Bool
  | .lbDirect _ _ | .lbIndirect _ _ _ | .lbuDirect _ _ | .lbuIndirect _ _ _ | .lhDirect _ _ | .lhIndirect _ _ _
  | .lhuDirect _ _ | .lhuIndirect _ _ _ | .lwDirect _ _ | .lwIndirect _ _ _ | .sbDirect _ _ | .sbIndirect _ _ _
  | .shDirect _ _ | .shIndirect _ _ _ | .swDirect _ _ | .swIndirect _ _ _ => true
  | _ => false

/-- div, divu and rem. -/
def isDivision : Instr → Bool
  | .div _ _ | .divu _ _ | .remReg _ _ _ | .remImm _ _ _ => true
  | _ => false

/-- The shifts by a register amount. -/
def isRegisterShift : Instr → Bool
  | .sllReg _ _ _ | .srlReg _ _ _ | .sllv _ _ _ | .srlv _ _ _ | .srav _ _ _ => true
  | _ => false

/-- The branches and jumps. -/
def isTransfer : Instr → Bool
  | .beq _ _ _ | .bne _ _ _ | .blt _ _ _ | .bgt _ _ _ | .bgez _ _ | .bgtz _ _ | .blez _ _
  | .j _ | .jal _ | .jr _ | .jalr _ => true
  | _ => false

/-- The bytes a store stores to, from its address: the address expression of its form and its width. -/
def storeTarget (i : Instr) (s : State) : Option (Int × Nat) :=
  match i with
  | .sbDirect _ address => some (directAddress address, 1)
  | .sbIndirect _ base offset => some (indirectAddress base offset s, 1)
  | .shDirect _ address => some (directAddress address, 2)
  | .shIndirect _ base offset => some (indirectAddress base offset s, 2)
  | .swDirect _ address => some (directAddress address, 4)
  | .swIndirect _ base offset => some (indirectAddress base offset s, 4)
  | _ => none

/-- R221: the instructions that raise a fault. -/
def raisedBy (f : RunFault) (i : Instr) : Prop :=
  match f with
  | .badOffset _ => False
  | .memoryBounds _ _ _ => isLoadOrStore i = true ∨ i = .syscall
  | .noSuchService _ _ => i = .syscall
  | .endOfInput service _ => i = .syscall ∧ (service = 5 ∨ service = 12)
  | .divideByZero _ => isDivision i = true
  | .shiftWide _ _ => isRegisterShift i = true
  | .badInput service _ => i = .syscall ∧ service = 5

/-- R221: the `at` of a fault; none for BadOffset, which no record raises. -/
def faultAt (f : RunFault) : Option Word :=
  match f with
  | .badOffset _ => none
  | .memoryBounds _ _ index => some index
  | .noSuchService _ index => some index
  | .endOfInput _ index => some index
  | .divideByZero index => some index
  | .shiftWide _ index => some index
  | .badInput _ index => some index

end Sys2Proof.Machine

open Sys2Proof Sys2Proof.Machine

/-! ## Instructions -/

/-- R100, R101, R104, R106, R108, R110, R111, R112: encoding, result and frame of the arithmetic and
logic instructions on registers. -/
def Obligations.RegisterArithmeticAndLogicResults : Prop :=
  ThreeRegisterRule .add 1 (fun x y => w32 (sval x + sval y)) ∧
  ThreeRegisterRule .addu 2 (fun x y => w32 (uval x + uval y)) ∧
  ThreeRegisterRule .and 5 (fun x y => x &&& y) ∧
  ThreeRegisterRule .or 7 (fun x y => x ||| y) ∧
  ThreeRegisterRule .xor 9 (fun x y => x ^^^ y) ∧
  ThreeRegisterRule .nor 11 (fun x y => ~~~(x ||| y)) ∧
  ThreeRegisterRule .sub 12 (fun x y => w32 (sval x - sval y)) ∧
  ThreeRegisterRule .subu 13 (fun x y => w32 (uval x - uval y))

/-- R102, R103, R105, R107, R109: encoding, result and frame of the arithmetic and logic instructions
with an immediate, all 32 bits of it. -/
def Obligations.ImmediateArithmeticAndLogicResults : Prop :=
  ImmediateRule .addi 3 (fun x imm => w32 (sval x + sval imm)) ∧
  ImmediateRule .addiu 4 (fun x imm => w32 (uval x + uval imm)) ∧
  ImmediateRule .andi 6 (fun x imm => x &&& imm) ∧
  ImmediateRule .ori 8 (fun x imm => x ||| imm) ∧
  ImmediateRule .xori 10 (fun x imm => x ^^^ imm)

/-- R120, R121: div and divu write the remainder to HI and the truncating quotient to LO, or raise
DivideByZero. -/
def Obligations.DivisionWritesHiAndLoOrFaults : Prop :=
  DivisionRule .div 14 sval ∧ DivisionRule .divu 15 uval

/-- R122, R123: mult and multu write the 64-bit product to HI and LO. -/
def Obligations.MultiplicationWritesHiAndLo : Prop :=
  ProductRule .mult 16 (fun x y => sval x * sval y) ∧ ProductRule .multu 17 (fun x y => uval x * uval y)

/-- R124, R125: mul and mulu write the low 32 bits of the product to a general register. -/
def Obligations.LowProductLeavesHiAndLo : Prop :=
  ThreeRegisterRule .mul 18 (fun x y => w32 (sval x * sval y)) ∧
  ThreeRegisterRule .mulu 19 (fun x y => w32 (uval x * uval y))

/-- R126: rem with a register or a literal divisor. -/
def Obligations.RemainderOfBothForms : Prop :=
  (∀ (rd rs rt : Reg) (s : State), decode (recordWord 20 3 rd rs rt 0) = .ok (.remReg rd rs rt) ∧
    RemainderOf (.remReg rd rs rt) s rd (sval (s.reg rs)) (sval (s.reg rt))) ∧
  (∀ (rd rs : Reg) (imm : Word) (s : State), decode (recordWord 20 4 rd rs 0 imm) = .ok (.remImm rd rs imm) ∧
    RemainderOf (.remImm rd rs imm) s rd (sval (s.reg rs)) (sval imm))

/-- R131, R133: sll in both forms and sllv. For an amount of 32 or more the outcome is the open
parameter SHIFT_WIDE. -/
def Obligations.LeftShiftsOfAllForms : Prop :=
  LiteralShiftRule .sllImm 21 (fun v n => v <<< n) ∧
  RegisterShiftRule .sllReg 21 .sll (fun v n => v <<< n) ∧
  RegisterShiftRule .sllv 23 .sll (fun v n => v <<< n)

/-- R132, R134: srl in both forms and srlv. -/
def Obligations.LogicalRightShiftsOfAllForms : Prop :=
  LiteralShiftRule .srlImm 22 (fun v n => v >>> n) ∧
  RegisterShiftRule .srlReg 22 .srl (fun v n => v >>> n) ∧
  RegisterShiftRule .srlv 24 .srl (fun v n => v >>> n)

/-- R135, R136: sra with a literal and srav with a register amount. -/
def Obligations.ArithmeticRightShiftsFillWithTheSign : Prop :=
  LiteralShiftRule .sra 25 (fun v n => v.sshiftRight n) ∧
  RegisterShiftRule .srav 26 .sra (fun v n => v.sshiftRight n)

/-- An inference R135 marks as its own: the source's method, the logical shift with a mask of ones for a
negative value, gives the arithmetic shift. -/
def Obligations.MaskMethodGivesTheArithmeticShift : Prop :=
  ∀ (v : Word) (n : Nat), n ≤ 31 →
    shifted .sra v n = shifted .srl v n ||| (if sval v < 0 then ~~~(shifted .srl 0xFFFFFFFF#32 n) else 0#32)

/-- R140 to R143: the comparisons write 1 when the condition holds and 0 when it does not. -/
def Obligations.ComparisonsWriteOneOrZero : Prop :=
  ThreeRegisterRule .slt 27 (fun x y => if sval x < sval y then 1 else 0) ∧
  ThreeRegisterRule .sltu 28 (fun x y => if uval x < uval y then 1 else 0) ∧
  ImmediateRule .slti 29 (fun x imm => if sval x < sval imm then 1 else 0) ∧
  ImmediateRule .sltiu 30 (fun x imm => if uval x < uval imm then 1 else 0)

/-- R151 to R154: the branches that compare two registers. -/
def Obligations.TwoRegisterBranchesSetPcOrKeepIt : Prop :=
  TwoRegisterBranchRule .beq 31 (fun x y => x = y) ∧
  TwoRegisterBranchRule .bne 32 (fun x y => x ≠ y) ∧
  TwoRegisterBranchRule .blt 33 (fun x y => sval x < sval y) ∧
  TwoRegisterBranchRule .bgt 34 (fun x y => sval x > sval y)

/-- R155 to R157: the branches that compare a register with zero. -/
def Obligations.ZeroBranchesSetPcOrKeepIt : Prop :=
  ZeroBranchRule .bgez 35 (fun x => sval x ≥ 0) ∧
  ZeroBranchRule .bgtz 36 (fun x => sval x > 0) ∧
  ZeroBranchRule .blez 37 (fun x => sval x ≤ 0)

/-- R160 to R163: the jumps, the link they write, and that the target is checked at the next fetch. -/
def Obligations.JumpsSetPcAndLink : Prop :=
  (∀ (target : Word) (s : State), decode (recordWord 38 7 0 0 0 target) = .ok (.j target) ∧
    Completes (.j target) s (fun t => JumpsTo s t target)) ∧
  (∀ (target : Word) (s : State), decode (recordWord 39 7 0 0 0 target) = .ok (.jal target) ∧
    Completes (.jal target) s (fun t => LinksAndJumpsTo s t target)) ∧
  (∀ (rs : Reg) (s : State), decode (recordWord 40 1 rs 0 0 0) = .ok (.jr rs) ∧
    Completes (.jr rs) s (fun t => JumpsTo s t (s.reg rs))) ∧
  (∀ (rs : Reg) (s : State), decode (recordWord 41 1 rs 0 0 0) = .ok (.jalr rs) ∧
    Completes (.jalr rs) s (fun t => LinksAndJumpsTo s t (s.reg rs)))

/-- R170, R171: la and li load a value or a 32-bit wraparound sum, and touch no memory. -/
def Obligations.LoadAddressAndLoadImmediate : Prop :=
  LoadAddressRule .laDirect .laIndirect 42 ∧ LoadAddressRule .liDirect .liIndirect 43

/-- R172, R173: lhi and llo overwrite one half of the register and keep the other. -/
def Obligations.HalfLoadsKeepTheOtherHalf : Prop :=
  HalfRule .lhi 44 (fun x h => h ++ x.extractLsb' 0 16) ∧
  HalfRule .llo 45 (fun x h => x.extractLsb' 16 16 ++ h)

/-- R181 to R185: the loads, little-endian, extended to a word; MemoryBounds outside memory. -/
def Obligations.LoadsReadLittleEndianOrFault : Prop :=
  LoadRule .lbDirect .lbIndirect 46 1 (fun s a => (s.byteAt a).signExtend 32) ∧
  LoadRule .lbuDirect .lbuIndirect 47 1 (fun s a => (s.byteAt a).setWidth 32) ∧
  LoadRule .lhDirect .lhIndirect 48 2 (fun s a => (s.byteAt (a + 1) ++ s.byteAt a).signExtend 32) ∧
  LoadRule .lhuDirect .lhuIndirect 49 2 (fun s a => (s.byteAt (a + 1) ++ s.byteAt a).setWidth 32) ∧
  LoadRule .lwDirect .lwIndirect 50 4
    (fun s a => s.byteAt (a + 3) ++ s.byteAt (a + 2) ++ s.byteAt (a + 1) ++ s.byteAt a)

/-- R186 to R188: the stores write the low bytes of their register, little-endian, and no other byte;
MemoryBounds outside memory. -/
def Obligations.StoresWriteLittleEndianOrFault : Prop :=
  StoreRule .sbDirect .sbIndirect 51 1 ∧ StoreRule .shDirect .shIndirect 52 2 ∧ StoreRule .swDirect .swIndirect 53 4

/-- R190 to R194: the register moves. -/
def Obligations.MovesCopyOneRegister : Prop :=
  (∀ (rd : Reg) (s : State), decode (recordWord 54 1 rd 0 0 0) = .ok (.mfhi rd) ∧
    Completes (.mfhi rd) s (fun t => WritesReg s t rd s.hi)) ∧
  (∀ (rd : Reg) (s : State), decode (recordWord 55 1 rd 0 0 0) = .ok (.mflo rd) ∧
    Completes (.mflo rd) s (fun t => WritesReg s t rd s.lo)) ∧
  (∀ (rs : Reg) (s : State), decode (recordWord 56 1 rs 0 0 0) = .ok (.mthi rs) ∧
    Completes (.mthi rs) s (fun t => WritesHiLo s t (s.reg rs) s.lo)) ∧
  (∀ (rs : Reg) (s : State), decode (recordWord 57 1 rs 0 0 0) = .ok (.mtlo rs) ∧
    Completes (.mtlo rs) s (fun t => WritesHiLo s t s.hi (s.reg rs))) ∧
  (∀ (rd rs : Reg) (s : State), decode (recordWord 58 2 rd rs 0 0) = .ok (.move rd rs) ∧
    Completes (.move rd rs) s (fun t => WritesReg s t rd (s.reg rs)))

/-- R200: nop changes nothing; a step that runs it only advances pc. -/
def Obligations.NopOnlyAdvancesPc : Prop :=
  decode (recordWord 59 0 0 0 0 0) = .ok .nop ∧
  (∀ s : State, Completes .nop s (fun t => SetsPc s t s.pc)) ∧
  (∀ s : State, s.status = .running → s.prog[s.pc.toNat]? = some (recordWord 59 0 0 0 0 0) →
    ∃ t, step s = .next t ∧ SetsPc s t (s.pc + 1))

/-- R22: no register is hardwired; a value moved into a register, register 0 too, is read back. -/
def Obligations.EveryRegisterKeepsWhatIsWritten : Prop :=
  ∀ (r d : Reg) (v : Word) (s : State), ∃ t u, exec (.liDirect r v) s = .next t ∧ t.reg r = v ∧
    exec (.move d r) t = .next u ∧ u.reg d = v ∧ u.reg r = v

/-- 40_arith_logic.md's common text, R124: each signed and unsigned pair computes the same result. -/
def Obligations.SignedAndUnsignedPairsAgree : Prop :=
  ∀ (rd rs rt : Reg) (imm : Word) (s : State),
    exec (.add rd rs rt) s = exec (.addu rd rs rt) s ∧ exec (.addi rd rs imm) s = exec (.addiu rd rs imm) s ∧
    exec (.sub rd rs rt) s = exec (.subu rd rs rt) s ∧ exec (.mul rd rs rt) s = exec (.mulu rd rs rt) s

/-- D15: after div, dividend = divisor * LO + HI, and the remainder is smaller than the divisor and is
zero or has the sign of the dividend. -/
def Obligations.DivisionIdentity : Prop :=
  ∀ (rs rt : Reg) (s : State), s.reg rt ≠ 0#32 → ∃ t, exec (.div rs rt) s = .next t ∧
    s.reg rs = s.reg rt * t.lo + t.hi ∧ (sval t.hi).natAbs < (sval (s.reg rt)).natAbs ∧
    (sval t.hi = 0 ∨ Int.sign (sval t.hi) = Int.sign (sval (s.reg rs)))

/-- R47, R255: after sw, lw at the same address reads the value back, lhu its low half and lbu each byte. -/
def Obligations.StoredWordIsLoadedBack : Prop :=
  ∀ (rt rd : Reg) (address : Word) (s : State), s.Inv → uval address + 4 ≤ (s.memSize : Int) →
    ∃ t, exec (.swDirect rt address) s = .next t ∧
      Completes (.lwDirect rd address) t (fun u => u.reg rd = s.reg rt) ∧
      Completes (.lhuDirect rd address) t (fun u => u.reg rd = ((s.reg rt).extractLsb' 0 16).setWidth 32) ∧
      (∀ k : Nat, k < 4 → Completes (.lbuDirect rd (w32 (uval address + (k : Int)))) t
        (fun u => u.reg rd = ((s.reg rt).extractLsb' (8 * k) 8).setWidth 32))

/-! ## syscall -/

/-- R202: service 1 prints the signed decimal text of `x[4]`. -/
def Obligations.PrintIntegerPrintsDecimalText : Prop :=
  ∀ s : State, s.reg 2 = 1#32 → ∃ text, IsDecimalText (sval (s.reg 4)) text ∧
    Completes .syscall s (fun t => Prints s t text)

/-- R203: service 4 prints the bytes before the first zero byte; a string that runs past memory raises
MemoryBounds at the first address outside it and prints nothing. -/
def Obligations.PrintStringReadsItWholeFirst : Prop :=
  ∀ s : State, s.reg 2 = 4#32 →
    (∀ n : Nat, (∀ k, k < n → s.byteAt ((s.reg 4).toNat + k) ≠ 0#8) → s.byteAt ((s.reg 4).toNat + n) = 0#8 →
      (s.reg 4).toNat + n < s.memSize →
      Completes .syscall s (fun t => Prints s t ((List.range n).map (fun k => s.byteAt ((s.reg 4).toNat + k))))) ∧
    (∀ n : Nat, (∀ k, k < n → s.byteAt ((s.reg 4).toNat + k) ≠ 0#8) →
      (n = 0 ∨ (s.reg 4).toNat + n ≤ s.memSize) → s.memSize ≤ (s.reg 4).toNat + n →
      Faults .syscall s (.memoryBounds (((s.reg 4).toNat + n : Nat) : Int) 1 s.index))

/-- R204 with log 8's set of ASCII whitespace (the model's choice): service 5 consumes one line and reads
its integer, or raises BadInput, or EndOfInput when no input is left. -/
def Obligations.ReadIntegerConsumesOneLine : Prop :=
  ∀ s : State, s.reg 2 = 5#32 →
    (s.consoleIn = [] → Faults .syscall s (.endOfInput 5 s.index)) ∧
    (∀ line rest, IsFirstLine s.consoleIn line rest →
      (∀ n, LineReadsAs line n → Completes .syscall s (fun t => ReadsInto s t rest (w32 n))) ∧
      ((∀ n, ¬LineReadsAs line n) → FaultsReading .syscall s (.badInput 5 s.index) rest))

/-- R205: service 8 reads at most N bytes or one line into memory and counts them in `x[2]`; bytes that do
not fit raise MemoryBounds after the read. -/
def Obligations.ReadBytesFillsTheBuffer : Prop :=
  ∀ (s : State) (got rest : List Byte), s.reg 2 = 8#32 → Memory.wf s.mem = true →
    (sval (s.reg 5) ≤ 0 → got = [] ∧ rest = s.consoleIn) →
    (0 < sval (s.reg 5) → IsReadUpTo s.consoleIn (sval (s.reg 5)).toNat got rest) →
    (got = [] ∨ (s.reg 4).toNat + got.length ≤ s.memSize →
      Completes .syscall s (fun t =>
        (∀ k, k < got.length → t.byteAt ((s.reg 4).toNat + k) = got.getD k 0#8) ∧
        (∀ b, b < (s.reg 4).toNat ∨ (s.reg 4).toNat + got.length ≤ b → t.byteAt b = s.byteAt b) ∧
        (∀ r, t.reg r = if r = 2 then w32 (got.length : Int) else s.reg r) ∧ KeepsHiLo s t ∧ t.pc = s.pc ∧
        t.status = s.status ∧ t.consoleIn = rest ∧ t.consoleOut = s.consoleOut ∧ KeepsImage s t)) ∧
    (got ≠ [] ∧ s.memSize < (s.reg 4).toNat + got.length →
      FaultsReading .syscall s (.memoryBounds (uval (s.reg 4)) got.length s.index) rest)

/-- R206: service 10 ends the run with the code in `x[4]`, and no other step ends a run without a fault. A
halted engine takes no step (R71, R241); that `step` answers with the refusal `halted` is the model's choice
(log 6). -/
def Obligations.ExitEndsTheRun : Prop :=
  (∀ s : State, s.reg 2 = 10#32 → Completes .syscall s (fun t =>
    t.status = .exited (s.reg 4) ∧ KeepsRegs s t ∧ KeepsHiLo s t ∧ t.pc = s.pc ∧ KeepsMemory s t ∧
    KeepsConsole s t ∧ KeepsImage s t ∧ step t = .refused (.halted (.exited (s.reg 4))))) ∧
  (∀ s t : State, step s = .next t → t.status ≠ .running →
    ∃ w, s.prog[s.pc.toNat]? = some w ∧ decode w = .ok .syscall ∧ s.reg 2 = 10#32 ∧ t.status = .exited (s.reg 4))

/-- R207: service 11 prints the low byte of `x[4]`. -/
def Obligations.PrintCharacterPrintsTheLowByte : Prop :=
  ∀ s : State, s.reg 2 = 11#32 → Completes .syscall s (fun t => Prints s t [(s.reg 4).extractLsb' 0 8])

/-- R208: service 12 reads one byte, zero-extended, or raises EndOfInput. -/
def Obligations.ReadCharacterConsumesOneByte : Prop :=
  ∀ s : State, s.reg 2 = 12#32 →
    (∀ b rest, s.consoleIn = b :: rest → Completes .syscall s (fun t => ReadsInto s t rest (b.setWidth 32))) ∧
    (s.consoleIn = [] → Faults .syscall s (.endOfInput 12 s.index))

/-- R209, R225: any other service number raises NoSuchService. -/
def Obligations.UnknownServiceFaults : Prop :=
  decode (recordWord 60 0 0 0 0 0) = .ok .syscall ∧
  (∀ s : State, (s.reg 2).toNat ∉ [1, 4, 5, 8, 10, 11, 12] →
    Faults .syscall s (.noSuchService (s.reg 2).toNat s.index))

/-- R226: at end of input services 5 and 12 raise EndOfInput, and service 8 does not. -/
def Obligations.EndOfInputFaultsOnlyBlockingReads : Prop :=
  ∀ s : State, s.consoleIn = [] →
    (s.reg 2 = 5#32 → Faults .syscall s (.endOfInput 5 s.index)) ∧
    (s.reg 2 = 12#32 → Faults .syscall s (.endOfInput 12 s.index)) ∧
    (s.reg 2 = 8#32 → Completes .syscall s (fun t => ReadsInto s t [] 0#32))

/-- R202, R204, log 8: service 5 reads back the integer whose text service 1 printed, whatever the integer. -/
def Obligations.PrintedIntegerIsReadBack : Prop :=
  ∀ s u : State, s.reg 2 = 1#32 → u.reg 2 = 5#32 → ∃ t text, exec .syscall s = .next t ∧
    t.consoleOut = s.consoleOut ++ text ∧
    ∀ rest, u.consoleIn = text ++ 0x0A#8 :: rest → Completes .syscall u (fun v => ReadsInto u v rest (s.reg 4))

/-! ## Decoding and encoding -/

/-- Words of 95_test_vectors.md, one or more of each family, decode to the instructions it names. -/
def Obligations.WordsOfEachFamilyDecode : Prop :=
  decode 0x0000000001494302#64 = .ok (.addu 8 9 10) ∧
  decode 0xFFFFFFFF00094C03#64 = .ok (.addi 9 9 0xFFFFFFFF#32) ∧
  decode 0x0000000000094210#64 = .ok (.mult 8 9) ∧
  decode 0xFFFFFFF900087C14#64 = .ok (.remImm 15 8 0xFFFFFFF9#32) ∧
  decode 0x0000000100094419#64 = .ok (.sra 8 9 1#32) ∧
  decode 0x000000000149431B#64 = .ok (.slt 8 9 10) ∧
  decode 0x0000000200004D24#64 = .ok (.bgtz 9 2#32) ∧
  decode 0x0000000A00000727#64 = .ok (.jal 10#32) ∧
  decode 0x000000000000F928#64 = .ok (.jr 31) ∧
  decode 0xFFFF80000000452D#64 = .ok (.llo 8 0xFFFF8000#32) ∧
  decode 0xFFFFFFFC001D4632#64 = .ok (.lwIndirect 8 29 0xFFFFFFFC#32) ∧
  decode 0x000000000008223A#64 = .ok (.move 4 8) ∧
  decode 0x000000000000003C#64 = .ok .syscall

/-- E1: every well-formed instruction, with every operand, decodes from the word it encodes to. -/
def Obligations.DecodeOfEncodeIsTheInstruction : Prop :=
  ∀ i : Instr, i.wf = true → decode (encode i) = .ok i

/-- D1: a word that decodes is the encoding of the well-formed instruction it decodes to, so the packing is
a bijection on legal records. -/
def Obligations.EncodeOfDecodeIsTheWord : Prop :=
  ∀ (w : Record) (i : Instr), decode w = .ok i → encode i = w ∧ i.wf = true

/-- R68: a record is legal exactly when its bits meet (a) to (f), and an image with an illegal record is
refused at load. -/
def Obligations.LegalRecordsAreThoseOfTheSpec : Prop :=
  (∀ w : Record, legalRecord w = true ↔ LegalWord w) ∧
  (∀ (r : ResetRegs) (img : Image) (input : List Byte), (∃ w ∈ img.records, ¬LegalWord w) →
    ∃ why, load r img input = .refused why)

/-! ## Steps and runs -/

/-- R71, R223: a Running engine with pc below N fetches the record at pc, advances pc and runs the decoded
instruction; with pc not below N it raises BadOffset and pc is not advanced; an engine that is not Running
takes no step. -/
def Obligations.StepRunsTheDecodedInstruction : Prop :=
  (∀ s : State, s.status = .running →
    (∀ w i, s.prog[s.pc.toNat]? = some w → decode w = .ok i →
      step s = exec i { s with pc := w32 (uval s.pc + 1) }) ∧
    (s.prog.length ≤ s.pc.toNat →
      step s = .fault (.raised (.badOffset s.pc) { s with status := .faulted (.badOffset s.pc) }))) ∧
  (∀ s : State, s.status ≠ .running → ∀ t r, step s ≠ .next t ∧ step s ≠ .fault r)

/-- A record placed by withFetchWord is the one the next step runs (log 2). -/
def Obligations.PlacedRecordIsRunNext : Prop :=
  ∀ (s : State) (nbits w : Nat) (i : Instr), decodeTableWord nbits w = some i →
    step (s.withFetchWord nbits w) = exec i (s.withFetchWord nbits w).advance

/-- R222, R223: a fault writes no register, HI, LO, memory byte or output; pc keeps the advance of the step,
which BadOffset does not make. Input is missing only from the front, and only under BadInput of service 5 or
a MemoryBounds whose width is the number of bytes gone; `ReadIntegerConsumesOneLine` and
`ReadBytesFillsTheBuffer` say which bytes go. No step follows (R220); that `step` answers with the refusal
`halted` is the model's choice (log 6). -/
def Obligations.FaultingStepWritesNothing : Prop :=
  ∀ (s t : State) (f : RunFault), step s = .fault (.raised f t) →
    t.status = .faulted f ∧ KeepsRegs s t ∧ KeepsHiLo s t ∧ KeepsMemory s t ∧ t.consoleOut = s.consoleOut ∧
    KeepsImage s t ∧ t.pc = (if f = .badOffset s.pc then s.pc else s.pc + 1) ∧
    (∃ got, got ++ t.consoleIn = s.consoleIn ∧
      (got ≠ [] → (∃ index, f = .badInput 5 index) ∨ ∃ a index, f = .memoryBounds a got.length index)) ∧
    step t = .refused (.halted (.faulted f))

/-- R221, R223: the codes of the faults; BadOffset comes from the fetch; every other fault comes from an
instruction of its row and records the index of the record that raised it. That a record raises only the
faults of its row is an inference the spec marks as its own (R230, derived). The faults of syscall are taken
together; the statements of its services tie each to the number in `x[2]`. -/
def Obligations.FaultsComeFromTheirInstructions : Prop :=
  (∀ (p index : Word) (a : Int) (n : Nat), (RunFault.badOffset p).code = 1 ∧ (RunFault.memoryBounds a n index).code = 2 ∧
    (RunFault.noSuchService n index).code = 3 ∧ (RunFault.endOfInput n index).code = 4 ∧
    (RunFault.divideByZero index).code = 5 ∧ (RunFault.shiftWide n index).code = 6 ∧
    (RunFault.badInput n index).code = 7) ∧
  (∀ (s t : State) (f : RunFault), step s = .fault (.raised f t) →
    (f = .badOffset s.pc ∧ s.prog.length ≤ s.pc.toNat) ∨
    (∃ w i, s.prog[s.pc.toNat]? = some w ∧ decode w = .ok i ∧ raisedBy f i ∧ faultAt f = some s.pc))

/-- R227: DivideByZero is raised by div, divu and rem with a zero divisor, and by nothing else. -/
def Obligations.DivideByZeroExactlyForAZeroDivisor : Prop :=
  ∀ (i : Instr) (s : State), (∃ index t, exec i s = .fault (.raised (.divideByZero index) t)) ↔
    (∃ rs rt, (i = .div rs rt ∨ i = .divu rs rt ∨ ∃ rd, i = .remReg rd rs rt) ∧ s.reg rt = 0#32) ∨
    (∃ rd rs, i = .remImm rd rs 0#32)

/-- R30: no step changes the program; the size of memory is fixed with it. -/
def Obligations.ProgramIsImmutable : Prop :=
  ∀ s t : State, step s = .next t → t.prog = s.prog ∧ t.memSize = s.memSize

/-- R25: HI and LO are written only by div, divu, mult, multu, mthi (HI) and mtlo (LO), and read only by
mfhi and mflo: what any other instruction does to everything else does not depend on them. The values HI and
LO get are the matter of `DivisionWritesHiAndLoOrFaults`, `MultiplicationWritesHiAndLo` and
`MovesCopyOneRegister`. -/
def Obligations.HiAndLoHaveOnlyTheirOwnInstructions : Prop :=
  (∀ (i : Instr) (s t : State), exec i s = .next t →
    (t.hi ≠ s.hi → ∃ rs rt, i = .div rs rt ∨ i = .divu rs rt ∨ i = .mult rs rt ∨ i = .multu rs rt ∨ i = .mthi rs) ∧
    (t.lo ≠ s.lo → ∃ rs rt, i = .div rs rt ∨ i = .divu rs rt ∨ i = .mult rs rt ∨ i = .multu rs rt ∨ i = .mtlo rs)) ∧
  (∀ (i : Instr) (s : State) (hi lo : Word), (∀ rd, i ≠ .mfhi rd ∧ i ≠ .mflo rd) →
    (∀ t, exec i s = .next t → ∃ u, exec i { s with hi := hi, lo := lo } = .next u ∧
      { u with hi := t.hi, lo := t.lo } = t) ∧
    (∀ f t, exec i s = .fault (.raised f t) → ∃ u, exec i { s with hi := hi, lo := lo } = .fault (.raised f u) ∧
      { u with hi := t.hi, lo := t.lo } = t))

/-- R29, 47_load_store.md, R205: a byte of memory changes only inside the bytes a store stores to, at the
address its form computes, or the bytes service 8 fills. -/
def Obligations.MemoryChangesOnlyWhereStored : Prop :=
  ∀ (i : Instr) (s t : State), exec i s = .next t → Memory.wf s.mem = true →
    (∀ a n, storeTarget i s = some (a, n) →
      ∀ b : Nat, (b : Int) < a ∨ a + (n : Int) ≤ (b : Int) → t.byteAt b = s.byteAt b) ∧
    (storeTarget i s = none → i ≠ .syscall → KeepsMemory s t) ∧
    (i = .syscall → s.reg 2 ≠ 8#32 → KeepsMemory s t) ∧
    (i = .syscall → s.reg 2 = 8#32 →
      ∀ b : Nat, b < (s.reg 4).toNat ∨ (s.reg 4).toNat + (t.reg 2).toNat ≤ b → t.byteAt b = s.byteAt b)

/-- R26: an instruction that is no branch or jump leaves pc as the step advanced it. -/
def Obligations.OnlyTransfersChangePc : Prop :=
  ∀ (i : Instr) (s t : State), exec i s = .next t → isTransfer i = false → t.pc = s.pc

/-- 49_system.md, R210: only syscall uses the console, and a step that goes on only removes input from the
front and adds output at the end. -/
def Obligations.ConsoleIsUsedOnlyBySyscall : Prop :=
  (∀ (i : Instr) (s t : State), exec i s = .next t → i ≠ .syscall → KeepsConsole s t) ∧
  (∀ s t : State, step s = .next t → ∃ got put, got ++ t.consoleIn = s.consoleIn ∧ t.consoleOut = s.consoleOut ++ put)

/-- 70_reset_and_hazards.md R250, 30_encoding.md R72: in a state of the invariant a step never meets an
illegal record, so a Running engine is never refused a step. -/
def Obligations.RunningEngineIsNeverRefused : Prop :=
  ∀ s : State, s.Inv → s.status = .running → ∀ why, step s ≠ .refused why

/-! ## Load, reset and the invariant -/

/-- R250, R33: the load refuses exactly the images it must, and the state it gives is R33's, for every
RESET_REGS and console input. -/
def Obligations.LoadGivesTheStateAfterReset : Prop :=
  ∀ (r : ResetRegs) (img : Image) (input : List Byte),
    ((img.records.length > 2 ^ 31 - 1 ∨ img.data.length + 1048576 > 2 ^ 31 ∨ ∃ w ∈ img.records, legalRecord w = false) →
      ∃ why, load r img input = .refused why) ∧
    (img.records.length ≤ 2 ^ 31 - 1 → img.data.length + 1048576 ≤ 2 ^ 31 → (∀ w ∈ img.records, legalRecord w = true) →
      ∃ t, load r img input = .next t ∧
        (∀ i, t.reg i = if i = 29 then w32 ((img.data.length + 1048576 : Nat) : Int) else r.x.get i) ∧
        t.hi = r.hi ∧ t.lo = r.lo ∧ t.pc = 0#32 ∧ t.memSize = img.data.length + 1048576 ∧
        (∀ a, t.byteAt a = img.data.getD a 0#8) ∧ t.prog = img.records ∧ t.status = .running ∧
        t.consoleIn = input ∧ t.consoleOut = [])

/-- Logs 1 to 3, the model's choices: State.reset is the load of the empty image with the stand-in zero
registers and no console input, and its first step raises BadOffset(0) (R223, N = 0). -/
def Obligations.ResetIsTheLoadOfTheEmptyImage : Prop :=
  load Config.zeroRegs ⟨[], []⟩ [] = .next State.reset ∧ State.reset.reg 29 = 0x00100000#32 ∧
    (∃ t, step State.reset = .fault (.raised (.badOffset 0#32) t))

/-- The invariant holds at reset. -/
def Obligations.ResetMeetsTheInvariant : Prop := State.reset.Inv

/-- The invariant holds after every load. -/
def Obligations.LoadMeetsTheInvariant : Prop :=
  ∀ (r : ResetRegs) (img : Image) (input : List Byte) (t : State), load r img input = .next t → t.Inv

/-- Every step keeps the invariant: canonical memory inside its size, a legal program within its bounds. -/
def Obligations.StepKeepsTheInvariant : Prop :=
  ∀ s t : State, s.Inv → step s = .next t → t.Inv

/-- Memories in canonical form that read alike at every address are equal (log 9). -/
def Obligations.CanonicalMemoriesThatReadAlikeAreEqual : Prop :=
  ∀ m m' : Memory, Memory.wf m = true → Memory.wf m' = true → (∀ a, Memory.read m a = Memory.read m' a) → m = m'
end

