-- ==== Sys2Proof/Laws/Console.lean ====
section
/-! SUPPORT. Laws of the console's reads: the bytes a read removes and the bytes it leaves are together the input it was given. -/

namespace Sys2Proof.Machine

theorem takeLine_append (input : List Byte) : (takeLine input).1 ++ (takeLine input).2 = input := by
  induction input with
  | nil => rfl
  | cons b bs ih =>
    rw [takeLine]
    split
    · rfl
    · simpa using ih

theorem conReadLine_eq_some {input line rest : List Byte} (h : conReadLine input = some (line, rest)) :
    line ++ rest = input := by
  unfold conReadLine at h
  split at h
  · cases h
  · have h' : takeLine input = (line, rest) := by simpa using h
    have := takeLine_append input
    rwa [h'] at this

theorem conReadUpTo_append (input : List Byte) (n : Nat) :
    (conReadUpTo input n).1 ++ (conReadUpTo input n).2 = input := by
  induction input generalizing n with
  | nil => rfl
  | cons b bs ih =>
    rw [conReadUpTo]
    repeat' split
    · rfl
    · rfl
    · simpa using ih (n - 1)

/-- A read never gives more bytes than it was asked for. -/
theorem conReadUpTo_length (input : List Byte) (n : Nat) : (conReadUpTo input n).1.length ≤ n := by
  induction input generalizing n with
  | nil => exact Nat.zero_le n
  | cons b bs ih =>
    rw [conReadUpTo]
    repeat' split
    · exact Nat.zero_le n
    · simp only [List.length_cons, List.length_nil]; omega
    · have := ih (n - 1)
      simp only [List.length_cons]; omega

theorem readAtMost_append (input : List Byte) (n : Int) :
    (readAtMost input n).1 ++ (readAtMost input n).2 = input := by
  unfold readAtMost
  split
  · rfl
  · exact conReadUpTo_append input n.toNat

theorem conReadByte_eq_some {input rest : List Byte} {b : Byte} (h : conReadByte input = some (b, rest)) :
    b :: rest = input := by
  cases input with
  | nil => cases h
  | cons c cs => cases h; rfl

/-- The string at `a` is its bytes up to the first zero byte (R203). -/
theorem stringBytes_eq_some (m : Memory) (fuel a n : Nat) (hne : ∀ k, k < n → Memory.read m (a + k) ≠ 0#8)
    (hz : Memory.read m (a + n) = 0#8) (hn : n < fuel) :
    stringBytes m fuel a = some ((List.range n).map (fun k => Memory.read m (a + k))) := by
  induction fuel generalizing a n with
  | zero => omega
  | succ f ih =>
    rw [stringBytes]
    cases n with
    | zero => simp [show Memory.read m a = 0#8 from hz]
    | succ n =>
      rw [if_neg (by simpa using hne 0 (by omega)), ih (a + 1) n _ _ (by omega)]
      · simp only [List.range_succ_eq_map, List.map_cons, List.map_map, Nat.add_zero, Option.some.injEq,
          List.cons.injEq, true_and]
        exact List.map_congr_left (fun k _ => by rw [Function.comp_apply, show a + 1 + k = a + (k + 1) from by omega])
      · intro k hk
        rw [show a + 1 + k = a + (k + 1) from by omega]
        exact hne (k + 1) (by omega)
      · rw [show a + 1 + n = a + (n + 1) from by omega]
        exact hz

/-- No string is read when there is no zero byte among the bytes that can be read. -/
theorem stringBytes_eq_none (m : Memory) (fuel a : Nat) (hne : ∀ k, k < fuel → Memory.read m (a + k) ≠ 0#8) :
    stringBytes m fuel a = none := by
  induction fuel generalizing a with
  | zero => rfl
  | succ f ih =>
    rw [stringBytes, if_neg (by simpa using hne 0 (by omega)), ih (a + 1)]
    intro k hk
    rw [show a + 1 + k = a + (k + 1) from by omega]
    exact hne (k + 1) (by omega)

end Sys2Proof.Machine
end

