-- ==== Sys2Proof/Laws/Decode.lean ====
section
/-! SUPPORT. Lemmas of the record packing (R62) and of the tag table (R64): packing and unpacking are inverse to each other. -/

namespace Sys2Proof

theorem Form.code_lt (f : Form) : f.code < 8 := by cases f <;> decide

@[simp] theorem Form.ofCode_code (f : Form) : Form.ofCode f.code = f := by cases f <;> rfl

theorem Form.code_ofCode (c : Nat) (h : c < 8) : (Form.ofCode c).code = c := by
  have : c = 0 ∨ c = 1 ∨ c = 2 ∨ c = 3 ∨ c = 4 ∨ c = 5 ∨ c = 6 ∨ c = 7 := by omega
  rcases this with rfl | rfl | rfl | rfl | rfl | rfl | rfl | rfl <;> rfl

@[simp] theorem mnemonicOf_tag (m : Mnemonic) : mnemonicOf m.tag = some m := by cases m <;> rfl

theorem tag_of_mnemonicOf {op : Fin 256} {m : Mnemonic} (h : mnemonicOf op = some m) : m.tag = op := by
  simpa using List.find?_some h

/-- The number a record's fields pack to is below `2^64`, so no bit is lost. -/
theorem pack_toNat (f : Fields) :
    (pack f).toNat = f.op.val + 2 ^ 8 * f.form.code + 2 ^ 11 * f.ra.val + 2 ^ 16 * f.rb.val
      + 2 ^ 21 * f.rc.val + 2 ^ 26 * f.res.val + 2 ^ 32 * f.imm.toNat := by
  have := f.form.code_lt
  have := f.imm.isLt
  have := f.op.isLt
  have := f.ra.isLt
  have := f.rb.isLt
  have := f.rc.isLt
  have := f.res.isLt
  rw [pack, BitVec.toNat_ofNat]
  omega

/-- Unpacking the word of a record's fields gives the fields. -/
@[simp] theorem unpack_pack (f : Fields) : unpack (pack f) = f := by
  have h := pack_toNat f
  obtain ⟨op, form, ra, rb, rc, res, imm⟩ := f
  simp only at h
  have := form.code_lt
  have := imm.isLt
  simp only [unpack, recordField, h, Fields.mk.injEq]
  refine ⟨Fin.ext ?_, ?_, Fin.ext ?_, Fin.ext ?_, Fin.ext ?_, Fin.ext ?_, BitVec.eq_of_toNat_eq ?_⟩
  · simp only [Fin.val_ofNat]; omega
  · rw [show (op.val + 2 ^ 8 * form.code + 2 ^ 11 * ra.val + 2 ^ 16 * rb.val + 2 ^ 21 * rc.val
      + 2 ^ 26 * res.val + 2 ^ 32 * imm.toNat) / 2 ^ 8 % 2 ^ 3 = form.code from by omega]
    exact Form.ofCode_code form
  · simp only [Fin.val_ofNat]; omega
  · simp only [Fin.val_ofNat]; omega
  · simp only [Fin.val_ofNat]; omega
  · simp only [Fin.val_ofNat]; omega
  · simp only [BitVec.toNat_ofNat]; omega

/-- Packing the fields of a word gives the word. -/
@[simp] theorem pack_unpack (w : Record) : pack (unpack w) = w := by
  apply BitVec.eq_of_toNat_eq
  have hw := w.isLt
  rw [pack_toNat]
  have hc : (unpack w).form.code = recordField w 8 3 :=
    Form.code_ofCode _ (by simp only [recordField]; omega)
  rw [hc]
  simp only [unpack, recordField, Fin.val_ofNat, BitVec.toNat_ofNat]
  omega

/-- What `assemble` accepts has the fields it was given, when the unused ones and `res` are 0. -/
theorem fields_of_assemble {m : Mnemonic} {f : Fields} {i : Instr} (hop : m.tag = f.op) (hres : f.res = 0)
    (hz : f.unusedZero = true) (h : assemble m f = some i) : i.fields = f := by
  obtain ⟨op, form, ra, rb, rc, res, imm⟩ := f
  simp only at hop hres
  subst hop hres
  cases m <;> simp only [assemble] at h <;> (repeat' split at h) <;>
    first
    | contradiction
    | (rename_i hf
       subst hf
       cases h
       simp_all [Fields.unusedZero, Instr.fields, Fields.ofNullary, Fields.ofR, Fields.ofRR, Fields.ofRRR,
         Fields.ofRRI, Fields.ofRA, Fields.ofRI, Fields.ofA])

/-- What `ofFields` accepts: a mnemonic's tag, `res` and the unused fields 0, and operands in range. -/
theorem ofFields_ok {f : Fields} {i : Instr} (h : ofFields f = .ok i) :
    ∃ m, mnemonicOf f.op = some m ∧ f.res = 0 ∧ f.unusedZero = true ∧ assemble m f = some i ∧ i.wf = true := by
  unfold ofFields at h
  split at h
  · cases h
  · rename_i m hm
    split at h
    · cases h
    · rename_i hr
      split at h
      · rename_i hz
        split at h
        · cases h
        · rename_i i' ha
          split at h
          · rename_i hw
            cases h
            exact ⟨m, hm, by simpa using hr, hz, ha, hw⟩
          · cases h
      · cases h

end Sys2Proof
end

