-- ==== Sys2Proof/Laws/Memory.lean ====
section
/-! SUPPORT. Laws of data memory: reading after writing, and that every memory operation keeps the canonical form and the bound on listed addresses. -/

namespace Sys2Proof.Machine

/-! ## Canonical form -/

theorem Memory.wfFrom_cons {lo k : Nat} {b : Byte} {m : Memory} :
    Memory.wfFrom lo ((k, b) :: m) = true ↔ lo ≤ k ∧ b ≠ Memory.unlisted ∧ Memory.wfFrom (k + 1) m = true := by
  simp [Memory.wfFrom, and_assoc]

theorem Memory.wfFrom_mono {lo lo' : Nat} {m : Memory} (h : lo' ≤ lo) (hm : Memory.wfFrom lo m = true) :
    Memory.wfFrom lo' m = true := by
  cases m with
  | nil => rfl
  | cons c m =>
    obtain ⟨k, b⟩ := c
    rw [Memory.wfFrom_cons] at hm ⊢
    exact ⟨by omega, hm.2⟩

/-- An address below the first that can be listed reads as the unlisted byte. -/
theorem Memory.read_eq_unlisted {lo a : Nat} {m : Memory} (h : a < lo) (hm : Memory.wfFrom lo m = true) :
    Memory.read m a = Memory.unlisted := by
  induction m generalizing lo with
  | nil => rfl
  | cons c m ih =>
    obtain ⟨k, b⟩ := c
    rw [Memory.wfFrom_cons] at hm
    rw [Memory.read, if_neg (by omega)]
    exact ih (by omega) hm.2.2

theorem Memory.wfFrom_write {lo a : Nat} {m : Memory} (v : Byte) (h : lo ≤ a) (hm : Memory.wfFrom lo m = true) :
    Memory.wfFrom lo (Memory.write m a v) = true := by
  induction m generalizing lo with
  | nil =>
    by_cases hv : v = Memory.unlisted
    · simp [Memory.write, hv, Memory.wfFrom]
    · rw [Memory.write, if_neg hv, Memory.wfFrom_cons]
      exact ⟨h, hv, rfl⟩
  | cons c m ih =>
    obtain ⟨k, b⟩ := c
    have hm' := Memory.wfFrom_cons.1 hm
    rw [Memory.write]
    split
    · split
      · exact hm
      · rename_i hv
        rw [Memory.wfFrom_cons]
        exact ⟨h, hv, Memory.wfFrom_cons.2 ⟨by omega, hm'.2⟩⟩
    · split
      · split
        · exact Memory.wfFrom_mono (by omega) hm'.2.2
        · rename_i hak hv
          rw [Memory.wfFrom_cons]
          exact ⟨h, hv, by rw [hak]; exact hm'.2.2⟩
      · rw [Memory.wfFrom_cons]
        exact ⟨hm'.1, hm'.2.1, ih (by omega) hm'.2.2⟩

/-- A write of a byte keeps the canonical form. -/
theorem Memory.wf_write {m : Memory} (a : Nat) (v : Byte) (hm : Memory.wf m = true) :
    Memory.wf (Memory.write m a v) = true := Memory.wfFrom_write v (Nat.zero_le a) hm

/-- A write of bytes keeps the canonical form. -/
theorem Memory.wf_writeBytes {m : Memory} (a : Nat) (bs : List Byte) (hm : Memory.wf m = true) :
    Memory.wf (Memory.writeBytes m a bs) = true := by
  induction bs generalizing m a with
  | nil => exact hm
  | cons b bs ih => exact ih (a + 1) (Memory.wf_write a b hm)

/-- The memory of a data buffer is in canonical form. -/
theorem Memory.wfFrom_ofData (a : Nat) (bs : List Byte) : Memory.wfFrom a (Memory.ofData a bs) = true := by
  induction bs generalizing a with
  | nil => rfl
  | cons b bs ih =>
    rw [Memory.ofData]
    split
    · exact Memory.wfFrom_mono (by omega) (ih (a + 1))
    · rename_i hb
      exact Memory.wfFrom_cons.2 ⟨Nat.le_refl a, hb, ih (a + 1)⟩

/-- The memory of a data buffer is in canonical form. -/
theorem Memory.wf_ofData (bs : List Byte) : Memory.wf (Memory.ofData 0 bs) = true := Memory.wfFrom_ofData 0 bs

/-! ## Reading after writing -/

/-- The byte read after a write is the value written at that address, the old byte elsewhere. -/
theorem Memory.read_writeFrom {lo a : Nat} {m : Memory} (v : Byte) (a' : Nat) (hm : Memory.wfFrom lo m = true) :
    Memory.read (Memory.write m a v) a' = if a' = a then v else Memory.read m a' := by
  induction m generalizing lo with
  | nil =>
    by_cases hv : v = Memory.unlisted <;> simp [Memory.write, hv, Memory.read, eq_comm]
  | cons c m ih =>
    obtain ⟨k, b⟩ := c
    have hm' := Memory.wfFrom_cons.1 hm
    rw [Memory.write]
    split
    · rename_i hak
      split
      · rename_i hv
        split
        · rename_i ha
          rw [ha, hv, Memory.read, if_neg (by omega)]
          exact Memory.read_eq_unlisted (by omega) hm'.2.2
        · rfl
      · rw [Memory.read]
        by_cases ha : a' = a
        · rw [if_pos ha.symm, if_pos ha]
        · rw [if_neg (Ne.symm ha), if_neg ha]
    · split
      · rename_i hak
        subst hak
        split
        · rename_i hv
          split
          · rename_i ha
            rw [ha, hv]
            exact Memory.read_eq_unlisted (Nat.lt_succ_self a) hm'.2.2
          · rename_i ha
            rw [Memory.read, if_neg (Ne.symm ha)]
        · by_cases ha : a' = a
          · rw [Memory.read, if_pos ha.symm, if_pos ha]
          · rw [Memory.read, if_neg (Ne.symm ha), if_neg ha, Memory.read, if_neg (Ne.symm ha)]
      · rename_i hak
        rw [Memory.read, Memory.read, ih hm'.2.2]
        by_cases ha : a' = a
        · rw [if_pos ha, if_pos ha, if_neg (by omega)]
        · rw [if_neg ha, if_neg ha]

/-- The byte read after a write, in canonical memory. -/
theorem Memory.read_write {m : Memory} (a : Nat) (v : Byte) (a' : Nat) (hm : Memory.wf m = true) :
    Memory.read (Memory.write m a v) a' = if a' = a then v else Memory.read m a' :=
  Memory.read_writeFrom v a' hm

/-- A byte outside the bytes written reads as before. -/
theorem Memory.read_writeBytes_outside {m : Memory} (a : Nat) (bs : List Byte) (a' : Nat)
    (hm : Memory.wf m = true) (h : a' < a ∨ a + bs.length ≤ a') :
    Memory.read (Memory.writeBytes m a bs) a' = Memory.read m a' := by
  induction bs generalizing m a with
  | nil => rfl
  | cons b bs ih =>
    rw [List.length_cons] at h
    rw [Memory.writeBytes, ih (a + 1) (Memory.wf_write a b hm) (by omega), Memory.read_write a b a' hm,
      if_neg (by omega)]

/-- A byte inside the bytes written reads as the byte written there. -/
theorem Memory.read_writeBytes_inside {m : Memory} (a : Nat) (bs : List Byte) (k : Nat)
    (hm : Memory.wf m = true) (h : k < bs.length) :
    Memory.read (Memory.writeBytes m a bs) (a + k) = bs[k] := by
  induction bs generalizing m a k with
  | nil => exact absurd h (Nat.not_lt_zero k)
  | cons b bs ih =>
    cases k with
    | zero =>
      rw [Memory.writeBytes, Memory.read_writeBytes_outside (a + 1) bs (a + 0) (Memory.wf_write a b hm)
        (by omega), Memory.read_write a b (a + 0) hm, if_pos (by omega)]
      rfl
    | succ k =>
      rw [List.length_cons] at h
      rw [Memory.writeBytes, show a + (k + 1) = a + 1 + k from by omega,
        ih (a + 1) k (Memory.wf_write a b hm) (by omega)]
      rfl

/-- The byte of a data buffer's memory: the buffer's byte inside it, 0x00 elsewhere. -/
theorem Memory.read_ofData (a : Nat) (bs : List Byte) (a' : Nat) :
    Memory.read (Memory.ofData a bs) a' = if a ≤ a' then bs.getD (a' - a) Memory.unlisted else Memory.unlisted := by
  induction bs generalizing a with
  | nil => simp [Memory.ofData, Memory.read]
  | cons b bs ih =>
    rw [Memory.ofData]
    by_cases hlt : a + 1 ≤ a'
    · rw [if_pos (show a ≤ a' by omega), show a' - a = (a' - (a + 1)) + 1 from by omega, List.getD_cons_succ]
      split
      · rw [ih, if_pos hlt]
      · rw [Memory.read, if_neg (by omega), ih, if_pos hlt]
    · by_cases he : a = a'
      · subst he
        rw [if_pos (Nat.le_refl a), Nat.sub_self, List.getD_cons_zero]
        split
        · rename_i hb
          rw [ih, if_neg hlt, hb]
        · rw [Memory.read, if_pos rfl]
      · rw [if_neg (show ¬a ≤ a' by omega)]
        split
        · rw [ih, if_neg hlt]
        · rw [Memory.read, if_neg he, ih, if_neg hlt]

/-! ## The bound on listed addresses -/

theorem Memory.below_cons {size k : Nat} {b : Byte} {m : Memory} :
    Memory.below ((k, b) :: m) size = true ↔ k < size ∧ Memory.below m size = true := by
  simp [Memory.below]

theorem Memory.below_write {m : Memory} {a size : Nat} (v : Byte) (h : a < size)
    (hm : Memory.below m size = true) : Memory.below (Memory.write m a v) size = true := by
  induction m with
  | nil => by_cases hv : v = Memory.unlisted <;> simp [Memory.write, hv, Memory.below, h]
  | cons c m ih =>
    obtain ⟨k, b⟩ := c
    have hm' := Memory.below_cons.1 hm
    rw [Memory.write]
    repeat' split
    · exact hm
    · exact Memory.below_cons.2 ⟨h, hm⟩
    · exact hm'.2
    · exact Memory.below_cons.2 ⟨h, hm'.2⟩
    · exact Memory.below_cons.2 ⟨hm'.1, ih hm'.2⟩

/-- A write inside memory lists no address outside it. -/
theorem Memory.below_writeBytes {m : Memory} {a size : Nat} (bs : List Byte) (h : a + bs.length ≤ size)
    (hm : Memory.below m size = true) : Memory.below (Memory.writeBytes m a bs) size = true := by
  induction bs generalizing m a with
  | nil => exact hm
  | cons b bs ih =>
    rw [List.length_cons] at h
    exact ih (by omega) (Memory.below_write b (by omega) hm)

theorem Memory.below_ofData (a : Nat) (bs : List Byte) (size : Nat) (h : a + bs.length ≤ size) :
    Memory.below (Memory.ofData a bs) size = true := by
  induction bs generalizing a with
  | nil => rfl
  | cons b bs ih =>
    rw [List.length_cons] at h
    rw [Memory.ofData]
    split
    · exact ih (a + 1) (by omega)
    · exact Memory.below_cons.2 ⟨by omega, ih (a + 1) (by omega)⟩

/-! ## Little-endian values -/

@[simp] theorem leBytes_length (n : Nat) (v : Word) : (leBytes n v).length = n := by
  induction n generalizing v with
  | zero => rfl
  | succ n ih => simp [leBytes, ih]

@[simp] theorem Memory.readBytes_length (m : Memory) (a n : Nat) : (Memory.readBytes m a n).length = n := by
  induction n generalizing a with
  | zero => rfl
  | succ n ih => simp [Memory.readBytes, ih]

/-- Byte `k` of a word's low `n` bytes is bits `8k+7 .. 8k` (R46). -/
theorem leBytes_getElem (n : Nat) (v : Word) (k : Nat) (h : k < (leBytes n v).length) :
    (leBytes n v)[k] = v.extractLsb' (8 * k) 8 := by
  induction n generalizing v k with
  | zero => exact absurd h (Nat.not_lt_zero k)
  | succ n ih =>
    cases k with
    | zero =>
      apply BitVec.eq_of_getLsbD_eq
      intro i hi
      simp [leBytes, hi]
    | succ k =>
      simp only [leBytes, List.getElem_cons_succ]
      rw [ih]
      apply BitVec.eq_of_getLsbD_eq
      intro i hi
      simp [hi, show 8 + (8 * k + i) = 8 * (k + 1) + i from by omega]

/-- Two bytes in little-endian order are their concatenation, the second high (R45). -/
theorem leValue_two (b0 b1 : Byte) : BitVec.ofNat 16 (leValue [b0, b1]) = b1 ++ b0 := by
  apply BitVec.eq_of_toNat_eq
  rw [BitVec.toNat_append, Nat.shiftLeft_eq, Nat.mul_comm, ← Nat.two_pow_add_eq_or_of_lt b0.isLt]
  simp only [leValue, BitVec.toNat_ofNat]
  omega

/-- Four bytes in little-endian order are their concatenation, the last highest (R45). -/
theorem leValue_four (b0 b1 b2 b3 : Byte) :
    BitVec.ofNat 32 (leValue [b0, b1, b2, b3]) = b3 ++ b2 ++ b1 ++ b0 := by
  have join : ∀ (x : Nat) (b : Byte), x * 2 ^ 8 ||| b.toNat = x * 2 ^ 8 + b.toNat := fun x b => by
    rw [Nat.mul_comm, ← Nat.two_pow_add_eq_or_of_lt b.isLt]
  apply BitVec.eq_of_toNat_eq
  simp only [BitVec.toNat_append, Nat.shiftLeft_eq, join, leValue, BitVec.toNat_ofNat]
  omega

end Sys2Proof.Machine
end

