-- ==== Sys2Proof/Laws/State.lean ====
section
/-! SUPPORT. The small lemmas of State: one for each field of each update, each true by rfl, and the register, byte and size reads of an update. -/

namespace Sys2Proof.Machine

/-- What a state update does to the reads that depend on one field only is said once, field by field. -/
theorem State.reg_eq_of_regs {s t : State} (h : t.regs = s.regs) (i : Reg) : t.reg i = s.reg i := by
  simp [State.reg, h]

/-- The register read after a write: the value written at that register, the old value elsewhere. -/
@[simp] theorem State.reg_setReg (s : State) (i j : Reg) (v : Word) :
    (s.setReg i v).reg j = if j = i then v else s.reg j := by
  simp only [State.reg, State.setReg, Vector.get_eq_getElem, Vector.getElem_set, Fin.ext_iff, eq_comm]

/-! ## State.setReg -/

@[simp] theorem State.setReg_regs (s : State) (i : Reg) (v : Word) : (s.setReg i v).regs = s.regs.set i.val v i.isLt := rfl
@[simp] theorem State.setReg_hi (s : State) (i : Reg) (v : Word) : (s.setReg i v).hi = s.hi := rfl
@[simp] theorem State.setReg_lo (s : State) (i : Reg) (v : Word) : (s.setReg i v).lo = s.lo := rfl
@[simp] theorem State.setReg_pc (s : State) (i : Reg) (v : Word) : (s.setReg i v).pc = s.pc := rfl
@[simp] theorem State.setReg_mem (s : State) (i : Reg) (v : Word) : (s.setReg i v).mem = s.mem := rfl
@[simp] theorem State.setReg_memSize (s : State) (i : Reg) (v : Word) : (s.setReg i v).memSize = s.memSize := rfl
@[simp] theorem State.setReg_prog (s : State) (i : Reg) (v : Word) : (s.setReg i v).prog = s.prog := rfl
@[simp] theorem State.setReg_status (s : State) (i : Reg) (v : Word) : (s.setReg i v).status = s.status := rfl
@[simp] theorem State.setReg_consoleIn (s : State) (i : Reg) (v : Word) : (s.setReg i v).consoleIn = s.consoleIn := rfl
@[simp] theorem State.setReg_consoleOut (s : State) (i : Reg) (v : Word) : (s.setReg i v).consoleOut = s.consoleOut := rfl
@[simp] theorem State.setReg_byteAt (s : State) (i : Reg) (v : Word) (a : Nat) : (s.setReg i v).byteAt a = s.byteAt a := rfl
@[simp] theorem State.setReg_inBounds (s : State) (i : Reg) (v : Word) (a : Int) (k : Nat) : (s.setReg i v).inBounds a k = s.inBounds a k := rfl
@[simp] theorem State.setReg_index (s : State) (i : Reg) (v : Word) : (s.setReg i v).index = s.index := rfl

/-! ## State.setHi -/

@[simp] theorem State.setHi_regs (s : State) (v : Word) : (s.setHi v).regs = s.regs := rfl
@[simp] theorem State.setHi_hi (s : State) (v : Word) : (s.setHi v).hi = v := rfl
@[simp] theorem State.setHi_lo (s : State) (v : Word) : (s.setHi v).lo = s.lo := rfl
@[simp] theorem State.setHi_pc (s : State) (v : Word) : (s.setHi v).pc = s.pc := rfl
@[simp] theorem State.setHi_mem (s : State) (v : Word) : (s.setHi v).mem = s.mem := rfl
@[simp] theorem State.setHi_memSize (s : State) (v : Word) : (s.setHi v).memSize = s.memSize := rfl
@[simp] theorem State.setHi_prog (s : State) (v : Word) : (s.setHi v).prog = s.prog := rfl
@[simp] theorem State.setHi_status (s : State) (v : Word) : (s.setHi v).status = s.status := rfl
@[simp] theorem State.setHi_consoleIn (s : State) (v : Word) : (s.setHi v).consoleIn = s.consoleIn := rfl
@[simp] theorem State.setHi_consoleOut (s : State) (v : Word) : (s.setHi v).consoleOut = s.consoleOut := rfl
@[simp] theorem State.setHi_reg (s : State) (v : Word) (j : Reg) : (s.setHi v).reg j = s.reg j := rfl
@[simp] theorem State.setHi_byteAt (s : State) (v : Word) (a : Nat) : (s.setHi v).byteAt a = s.byteAt a := rfl
@[simp] theorem State.setHi_inBounds (s : State) (v : Word) (a : Int) (k : Nat) : (s.setHi v).inBounds a k = s.inBounds a k := rfl
@[simp] theorem State.setHi_index (s : State) (v : Word) : (s.setHi v).index = s.index := rfl

/-! ## State.setLo -/

@[simp] theorem State.setLo_regs (s : State) (v : Word) : (s.setLo v).regs = s.regs := rfl
@[simp] theorem State.setLo_hi (s : State) (v : Word) : (s.setLo v).hi = s.hi := rfl
@[simp] theorem State.setLo_lo (s : State) (v : Word) : (s.setLo v).lo = v := rfl
@[simp] theorem State.setLo_pc (s : State) (v : Word) : (s.setLo v).pc = s.pc := rfl
@[simp] theorem State.setLo_mem (s : State) (v : Word) : (s.setLo v).mem = s.mem := rfl
@[simp] theorem State.setLo_memSize (s : State) (v : Word) : (s.setLo v).memSize = s.memSize := rfl
@[simp] theorem State.setLo_prog (s : State) (v : Word) : (s.setLo v).prog = s.prog := rfl
@[simp] theorem State.setLo_status (s : State) (v : Word) : (s.setLo v).status = s.status := rfl
@[simp] theorem State.setLo_consoleIn (s : State) (v : Word) : (s.setLo v).consoleIn = s.consoleIn := rfl
@[simp] theorem State.setLo_consoleOut (s : State) (v : Word) : (s.setLo v).consoleOut = s.consoleOut := rfl
@[simp] theorem State.setLo_reg (s : State) (v : Word) (j : Reg) : (s.setLo v).reg j = s.reg j := rfl
@[simp] theorem State.setLo_byteAt (s : State) (v : Word) (a : Nat) : (s.setLo v).byteAt a = s.byteAt a := rfl
@[simp] theorem State.setLo_inBounds (s : State) (v : Word) (a : Int) (k : Nat) : (s.setLo v).inBounds a k = s.inBounds a k := rfl
@[simp] theorem State.setLo_index (s : State) (v : Word) : (s.setLo v).index = s.index := rfl

/-! ## State.setMem -/

@[simp] theorem State.setMem_regs (s : State) (m : Memory) : (s.setMem m).regs = s.regs := rfl
@[simp] theorem State.setMem_hi (s : State) (m : Memory) : (s.setMem m).hi = s.hi := rfl
@[simp] theorem State.setMem_lo (s : State) (m : Memory) : (s.setMem m).lo = s.lo := rfl
@[simp] theorem State.setMem_pc (s : State) (m : Memory) : (s.setMem m).pc = s.pc := rfl
@[simp] theorem State.setMem_mem (s : State) (m : Memory) : (s.setMem m).mem = m := rfl
@[simp] theorem State.setMem_memSize (s : State) (m : Memory) : (s.setMem m).memSize = s.memSize := rfl
@[simp] theorem State.setMem_prog (s : State) (m : Memory) : (s.setMem m).prog = s.prog := rfl
@[simp] theorem State.setMem_status (s : State) (m : Memory) : (s.setMem m).status = s.status := rfl
@[simp] theorem State.setMem_consoleIn (s : State) (m : Memory) : (s.setMem m).consoleIn = s.consoleIn := rfl
@[simp] theorem State.setMem_consoleOut (s : State) (m : Memory) : (s.setMem m).consoleOut = s.consoleOut := rfl
@[simp] theorem State.setMem_reg (s : State) (m : Memory) (j : Reg) : (s.setMem m).reg j = s.reg j := rfl
@[simp] theorem State.setMem_byteAt (s : State) (m : Memory) (a : Nat) : (s.setMem m).byteAt a = Memory.read m a := rfl
@[simp] theorem State.setMem_inBounds (s : State) (m : Memory) (a : Int) (k : Nat) : (s.setMem m).inBounds a k = s.inBounds a k := rfl
@[simp] theorem State.setMem_index (s : State) (m : Memory) : (s.setMem m).index = s.index := rfl

/-! ## State.setStatus -/

@[simp] theorem State.setStatus_regs (s : State) (st : Status) : (s.setStatus st).regs = s.regs := rfl
@[simp] theorem State.setStatus_hi (s : State) (st : Status) : (s.setStatus st).hi = s.hi := rfl
@[simp] theorem State.setStatus_lo (s : State) (st : Status) : (s.setStatus st).lo = s.lo := rfl
@[simp] theorem State.setStatus_pc (s : State) (st : Status) : (s.setStatus st).pc = s.pc := rfl
@[simp] theorem State.setStatus_mem (s : State) (st : Status) : (s.setStatus st).mem = s.mem := rfl
@[simp] theorem State.setStatus_memSize (s : State) (st : Status) : (s.setStatus st).memSize = s.memSize := rfl
@[simp] theorem State.setStatus_prog (s : State) (st : Status) : (s.setStatus st).prog = s.prog := rfl
@[simp] theorem State.setStatus_status (s : State) (st : Status) : (s.setStatus st).status = st := rfl
@[simp] theorem State.setStatus_consoleIn (s : State) (st : Status) : (s.setStatus st).consoleIn = s.consoleIn := rfl
@[simp] theorem State.setStatus_consoleOut (s : State) (st : Status) : (s.setStatus st).consoleOut = s.consoleOut := rfl
@[simp] theorem State.setStatus_reg (s : State) (st : Status) (j : Reg) : (s.setStatus st).reg j = s.reg j := rfl
@[simp] theorem State.setStatus_byteAt (s : State) (st : Status) (a : Nat) : (s.setStatus st).byteAt a = s.byteAt a := rfl
@[simp] theorem State.setStatus_inBounds (s : State) (st : Status) (a : Int) (k : Nat) : (s.setStatus st).inBounds a k = s.inBounds a k := rfl
@[simp] theorem State.setStatus_index (s : State) (st : Status) : (s.setStatus st).index = s.index := rfl

/-! ## State.setPc -/

@[simp] theorem State.setPc_regs (s : State) (t : Word) : (s.setPc t).regs = s.regs := rfl
@[simp] theorem State.setPc_hi (s : State) (t : Word) : (s.setPc t).hi = s.hi := rfl
@[simp] theorem State.setPc_lo (s : State) (t : Word) : (s.setPc t).lo = s.lo := rfl
@[simp] theorem State.setPc_pc (s : State) (t : Word) : (s.setPc t).pc = t := rfl
@[simp] theorem State.setPc_mem (s : State) (t : Word) : (s.setPc t).mem = s.mem := rfl
@[simp] theorem State.setPc_memSize (s : State) (t : Word) : (s.setPc t).memSize = s.memSize := rfl
@[simp] theorem State.setPc_prog (s : State) (t : Word) : (s.setPc t).prog = s.prog := rfl
@[simp] theorem State.setPc_status (s : State) (t : Word) : (s.setPc t).status = s.status := rfl
@[simp] theorem State.setPc_consoleIn (s : State) (t : Word) : (s.setPc t).consoleIn = s.consoleIn := rfl
@[simp] theorem State.setPc_consoleOut (s : State) (t : Word) : (s.setPc t).consoleOut = s.consoleOut := rfl
@[simp] theorem State.setPc_reg (s : State) (t : Word) (j : Reg) : (s.setPc t).reg j = s.reg j := rfl
@[simp] theorem State.setPc_byteAt (s : State) (t : Word) (a : Nat) : (s.setPc t).byteAt a = s.byteAt a := rfl
@[simp] theorem State.setPc_inBounds (s : State) (t : Word) (a : Int) (k : Nat) : (s.setPc t).inBounds a k = s.inBounds a k := rfl

/-! ## State.advance -/

@[simp] theorem State.advance_regs (s : State) : (s.advance).regs = s.regs := rfl
@[simp] theorem State.advance_hi (s : State) : (s.advance).hi = s.hi := rfl
@[simp] theorem State.advance_lo (s : State) : (s.advance).lo = s.lo := rfl
@[simp] theorem State.advance_pc (s : State) : (s.advance).pc = w32 (uval s.pc + 1) := rfl
@[simp] theorem State.advance_mem (s : State) : (s.advance).mem = s.mem := rfl
@[simp] theorem State.advance_memSize (s : State) : (s.advance).memSize = s.memSize := rfl
@[simp] theorem State.advance_prog (s : State) : (s.advance).prog = s.prog := rfl
@[simp] theorem State.advance_status (s : State) : (s.advance).status = s.status := rfl
@[simp] theorem State.advance_consoleIn (s : State) : (s.advance).consoleIn = s.consoleIn := rfl
@[simp] theorem State.advance_consoleOut (s : State) : (s.advance).consoleOut = s.consoleOut := rfl
@[simp] theorem State.advance_reg (s : State) (j : Reg) : (s.advance).reg j = s.reg j := rfl
@[simp] theorem State.advance_byteAt (s : State) (a : Nat) : (s.advance).byteAt a = s.byteAt a := rfl
@[simp] theorem State.advance_inBounds (s : State) (a : Int) (k : Nat) : (s.advance).inBounds a k = s.inBounds a k := rfl

/-! ## State.exit -/

@[simp] theorem State.exit_regs (s : State) (code : Word) : (s.exit code).regs = s.regs := rfl
@[simp] theorem State.exit_hi (s : State) (code : Word) : (s.exit code).hi = s.hi := rfl
@[simp] theorem State.exit_lo (s : State) (code : Word) : (s.exit code).lo = s.lo := rfl
@[simp] theorem State.exit_pc (s : State) (code : Word) : (s.exit code).pc = s.pc := rfl
@[simp] theorem State.exit_mem (s : State) (code : Word) : (s.exit code).mem = s.mem := rfl
@[simp] theorem State.exit_memSize (s : State) (code : Word) : (s.exit code).memSize = s.memSize := rfl
@[simp] theorem State.exit_prog (s : State) (code : Word) : (s.exit code).prog = s.prog := rfl
@[simp] theorem State.exit_status (s : State) (code : Word) : (s.exit code).status = .exited code := rfl
@[simp] theorem State.exit_consoleIn (s : State) (code : Word) : (s.exit code).consoleIn = s.consoleIn := rfl
@[simp] theorem State.exit_consoleOut (s : State) (code : Word) : (s.exit code).consoleOut = s.consoleOut := rfl
@[simp] theorem State.exit_reg (s : State) (code : Word) (j : Reg) : (s.exit code).reg j = s.reg j := rfl
@[simp] theorem State.exit_byteAt (s : State) (code : Word) (a : Nat) : (s.exit code).byteAt a = s.byteAt a := rfl
@[simp] theorem State.exit_inBounds (s : State) (code : Word) (a : Int) (k : Nat) : (s.exit code).inBounds a k = s.inBounds a k := rfl
@[simp] theorem State.exit_index (s : State) (code : Word) : (s.exit code).index = s.index := rfl

/-! ## State.conWrite -/

@[simp] theorem State.conWrite_regs (s : State) (bs : List Byte) : (s.conWrite bs).regs = s.regs := rfl
@[simp] theorem State.conWrite_hi (s : State) (bs : List Byte) : (s.conWrite bs).hi = s.hi := rfl
@[simp] theorem State.conWrite_lo (s : State) (bs : List Byte) : (s.conWrite bs).lo = s.lo := rfl
@[simp] theorem State.conWrite_pc (s : State) (bs : List Byte) : (s.conWrite bs).pc = s.pc := rfl
@[simp] theorem State.conWrite_mem (s : State) (bs : List Byte) : (s.conWrite bs).mem = s.mem := rfl
@[simp] theorem State.conWrite_memSize (s : State) (bs : List Byte) : (s.conWrite bs).memSize = s.memSize := rfl
@[simp] theorem State.conWrite_prog (s : State) (bs : List Byte) : (s.conWrite bs).prog = s.prog := rfl
@[simp] theorem State.conWrite_status (s : State) (bs : List Byte) : (s.conWrite bs).status = s.status := rfl
@[simp] theorem State.conWrite_consoleIn (s : State) (bs : List Byte) : (s.conWrite bs).consoleIn = s.consoleIn := rfl
@[simp] theorem State.conWrite_consoleOut (s : State) (bs : List Byte) : (s.conWrite bs).consoleOut = s.consoleOut ++ bs := rfl
@[simp] theorem State.conWrite_reg (s : State) (bs : List Byte) (j : Reg) : (s.conWrite bs).reg j = s.reg j := rfl
@[simp] theorem State.conWrite_byteAt (s : State) (bs : List Byte) (a : Nat) : (s.conWrite bs).byteAt a = s.byteAt a := rfl
@[simp] theorem State.conWrite_inBounds (s : State) (bs : List Byte) (a : Int) (k : Nat) : (s.conWrite bs).inBounds a k = s.inBounds a k := rfl
@[simp] theorem State.conWrite_index (s : State) (bs : List Byte) : (s.conWrite bs).index = s.index := rfl

/-! ## State.setInput -/

@[simp] theorem State.setInput_regs (s : State) (rest : List Byte) : (s.setInput rest).regs = s.regs := rfl
@[simp] theorem State.setInput_hi (s : State) (rest : List Byte) : (s.setInput rest).hi = s.hi := rfl
@[simp] theorem State.setInput_lo (s : State) (rest : List Byte) : (s.setInput rest).lo = s.lo := rfl
@[simp] theorem State.setInput_pc (s : State) (rest : List Byte) : (s.setInput rest).pc = s.pc := rfl
@[simp] theorem State.setInput_mem (s : State) (rest : List Byte) : (s.setInput rest).mem = s.mem := rfl
@[simp] theorem State.setInput_memSize (s : State) (rest : List Byte) : (s.setInput rest).memSize = s.memSize := rfl
@[simp] theorem State.setInput_prog (s : State) (rest : List Byte) : (s.setInput rest).prog = s.prog := rfl
@[simp] theorem State.setInput_status (s : State) (rest : List Byte) : (s.setInput rest).status = s.status := rfl
@[simp] theorem State.setInput_consoleIn (s : State) (rest : List Byte) : (s.setInput rest).consoleIn = rest := rfl
@[simp] theorem State.setInput_consoleOut (s : State) (rest : List Byte) : (s.setInput rest).consoleOut = s.consoleOut := rfl
@[simp] theorem State.setInput_reg (s : State) (rest : List Byte) (j : Reg) : (s.setInput rest).reg j = s.reg j := rfl
@[simp] theorem State.setInput_byteAt (s : State) (rest : List Byte) (a : Nat) : (s.setInput rest).byteAt a = s.byteAt a := rfl
@[simp] theorem State.setInput_inBounds (s : State) (rest : List Byte) (a : Int) (k : Nat) : (s.setInput rest).inBounds a k = s.inBounds a k := rfl
@[simp] theorem State.setInput_index (s : State) (rest : List Byte) : (s.setInput rest).index = s.index := rfl

/-- The advance of pc is the addition of 1 to the word. -/
theorem w32_uval_succ (v : Word) : w32 (uval v + 1) = v + 1#32 := by
  apply BitVec.eq_of_toNat_eq
  simp only [w32, uval, BitVec.toNat_ofInt, BitVec.toNat_add, BitVec.toNat_ofNat]
  omega

/-- While a record executes, `pc - 1` is the index it was fetched at. -/
@[simp] theorem State.advance_index (s : State) : s.advance.index = s.pc := by
  simp [State.index, w32_uval_succ]

end Sys2Proof.Machine
end

