-- ==== Sys2Proof/Laws/Ops.lean ====
section
/-! SUPPORT. One lemma for each shared operation that says once what it answers, and when. -/

namespace Sys2Proof.Machine

/-! ## Memory access -/

theorem State.inBounds_iff {s : State} {a : Int} {n : Nat} :
    s.inBounds a n = true ↔ 0 ≤ a ∧ a + (n : Int) ≤ (s.memSize : Int) := by
  simp [State.inBounds]

/-- MemRead gives the little-endian value of the bytes exactly when the access is in bounds (R45). -/
theorem State.memRead_eq_some {s : State} {a : Int} {n v : Nat} :
    s.memRead a n = some v ↔ s.inBounds a n = true ∧ v = leValue (Memory.readBytes s.mem a.toNat n) := by
  unfold State.memRead
  split <;> rename_i h
  · rw [Option.some.injEq]
    exact ⟨fun e => ⟨h, e.symm⟩, fun e => e.2.symm⟩
  · exact ⟨fun e => (nomatch e), fun e => absurd e.1 h⟩

theorem State.memRead_eq_none {s : State} {a : Int} {n : Nat} :
    s.memRead a n = none ↔ s.inBounds a n = false := by
  unfold State.memRead
  split <;> simp_all

/-- MemWrite writes the bytes exactly when the access is in bounds (R46). -/
theorem State.memWrite_eq_some {s t : State} {a : Int} {bs : List Byte} :
    s.memWrite a bs = some t ↔
      s.inBounds a bs.length = true ∧ t = s.setMem (Memory.writeBytes s.mem a.toNat bs) := by
  unfold State.memWrite
  split <;> rename_i h
  · rw [Option.some.injEq]
    exact ⟨fun e => ⟨h, e.symm⟩, fun e => e.2.symm⟩
  · exact ⟨fun e => (nomatch e), fun e => absurd e.1 h⟩

theorem State.memWrite_eq_none {s : State} {a : Int} {bs : List Byte} :
    s.memWrite a bs = none ↔ s.inBounds a bs.length = false := by
  unfold State.memWrite
  split <;> simp_all

/-- A load in bounds completes, with the widened value in its register. -/
theorem loadInto_of_inBounds {rt : Reg} {a : Int} {n : Nat} {widen : Nat → Word} {s : State}
    (h : s.inBounds a n = true) :
    loadInto rt a n widen s = .next (s.setReg rt (widen (leValue (Memory.readBytes s.mem a.toNat n)))) := by
  simp [loadInto, State.memRead, h, writeReg]

/-- A load out of bounds raises MemoryBounds. -/
theorem loadInto_of_outOfBounds {rt : Reg} {a : Int} {n : Nat} {widen : Nat → Word} {s : State}
    (h : s.inBounds a n = false) :
    loadInto rt a n widen s = raise (.memoryBounds a n s.index) s := by
  simp [loadInto, State.memRead, h]

/-- A store in bounds completes, with the low bytes of its value in memory. -/
theorem storeAt_of_inBounds {a : Int} {n : Nat} {v : Word} {s : State} (h : s.inBounds a n = true) :
    storeAt a n v s = .next (s.setMem (Memory.writeBytes s.mem a.toNat (leBytes n v))) := by
  simp [storeAt, State.memWrite, h]

/-- A store out of bounds raises MemoryBounds. -/
theorem storeAt_of_outOfBounds {a : Int} {n : Nat} {v : Word} {s : State} (h : s.inBounds a n = false) :
    storeAt a n v s = raise (.memoryBounds a n s.index) s := by
  simp [storeAt, State.memWrite, h]

/-! ## Results -/

/-- A raised fault is never a next state. -/
theorem raise_ne_next (f : RunFault) (s t : State) : raise f s ≠ .next t := by simp [raise]

theorem raise_eq_fault {f g : RunFault} {s t : State} :
    raise f s = .fault (.raised g t) ↔ g = f ∧ t = s.setStatus (.faulted f) := by
  simp [raise, eq_comm]

theorem writeReg_eq_next {rd : Reg} {v : Word} {s t : State} :
    writeReg rd v s = .next t ↔ t = s.setReg rd v := by
  simp [writeReg, eq_comm]

theorem writeReg_ne_fault (rd : Reg) (v : Word) (s : State) (r : Fault) : writeReg rd v s ≠ .fault r := by
  simp [writeReg]

/-- A branch completes with pc at its target or, when it is not taken, with pc as it is. -/
theorem branchIf_eq_next (c : Bool) (target : Word) (s : State) :
    branchIf c target s = .next (s.setPc (if c then target else s.pc)) := by
  cases c <;> rfl

theorem divideInto_of_ne_zero {a b : Int} {s : State} (h : b ≠ 0) :
    divideInto a b s = .next ((s.setLo (w32 (tdiv a b))).setHi (w32 (trem a b))) := if_neg h

theorem divideInto_zero (a : Int) (s : State) : divideInto a 0 s = raise (.divideByZero s.index) s := if_pos rfl

theorem remainderInto_of_ne_zero {rd : Reg} {a b : Int} {s : State} (h : b ≠ 0) :
    remainderInto rd a b s = .next (s.setReg rd (w32 (trem a b))) := if_neg h

theorem remainderInto_zero (rd : Reg) (a : Int) (s : State) :
    remainderInto rd a 0 s = raise (.divideByZero s.index) s := if_pos rfl

/-- The remainder of the spec is the truncating remainder of Lean's integers. -/
theorem trem_eq_tmod (a b : Int) : trem a b = Int.tmod a b := by
  have := Int.tmod_add_mul_tdiv a b
  simp only [trem, tdiv]
  omega

/-- A shift by 31 or less writes the exact result. -/
theorem shiftInto_of_le {kind : ShiftKind} {rd : Reg} {v : Word} {n : Nat} {s : State} (h : n ≤ 31) :
    shiftInto kind rd v n s = .next (s.setReg rd (shifted kind v n)) := if_pos h

/-- A wider shift has SHIFT_WIDE's outcome. -/
theorem shiftInto_of_gt {kind : ShiftKind} {rd : Reg} {v : Word} {n : Nat} {s : State} (h : 31 < n) :
    shiftInto kind rd v n s = match Config.shiftWide kind v n with
      | some w => .next (s.setReg rd w)
      | none => raise (.shiftWide n s.index) s := by
  rw [shiftInto, if_neg (by omega)]
  rfl

/-! ## Words and integers -/

@[simp] theorem w32_uval (v : Word) : w32 (uval v) = v := by simp [w32, uval]

@[simp] theorem w32_sval (v : Word) : w32 (sval v) = v := by simp [w32, sval]

end Sys2Proof.Machine
end

