-- ==== Sys2Proof/Laws/Exec.lean ====
section
/-! SUPPORT. What an instruction can do, said once: every answer of `exec` is one of the effects listed here, and what a step can do is read off it. -/

namespace Sys2Proof.Machine

/-- The answers an instruction can give in state `s`. `rest` is what a console read leaves of the input. -/
inductive Effect (s : State) : Result → Prop where
  | unchanged : Effect s (.next s)
  | register (rd : Reg) (v : Word) : Effect s (.next (s.setReg rd v))
  | hiLo (h l : Word) : Effect s (.next ((s.setHi h).setLo l))
  | jump (t : Word) : Effect s (.next (s.setPc t))
  | link (t : Word) : Effect s (.next ((s.setReg linkReg s.pc).setPc t))
  | store (a : Int) (bs : List Byte) (h : s.inBounds a bs.length = true) :
      Effect s (.next (s.setMem (Memory.writeBytes s.mem a.toNat bs)))
  | print (bs : List Byte) : Effect s (.next (s.conWrite bs))
  | exit (code : Word) : Effect s (.next (s.exit code))
  | read (got rest : List Byte) (v : Word) (h : got ++ rest = s.consoleIn) :
      Effect s (.next ((s.setInput rest).setReg serviceReg v))
  | readBytes (got rest : List Byte) (a : Int) (v : Word) (h : got ++ rest = s.consoleIn)
      (hb : s.inBounds a got.length = true) :
      Effect s (.next (((s.setInput rest).setMem (Memory.writeBytes s.mem a.toNat got)).setReg serviceReg v))
  | fault (f : RunFault) : Effect s (raise f s)
  | faultAfterRead (f : RunFault) (got rest : List Byte) (h : got ++ rest = s.consoleIn) :
      Effect s (raise f (s.setInput rest))

theorem Effect.ofWriteReg (rd : Reg) (v : Word) (s : State) : Effect s (writeReg rd v s) := .register rd v

theorem Effect.ofDivide (a b : Int) (s : State) : Effect s (divideInto a b s) := by
  unfold divideInto
  split
  · exact .fault _
  · exact .hiLo _ _

theorem Effect.ofRemainder (rd : Reg) (a b : Int) (s : State) : Effect s (remainderInto rd a b s) := by
  unfold remainderInto
  split
  · exact .fault _
  · exact .register _ _

theorem Effect.ofShift (kind : ShiftKind) (rd : Reg) (v : Word) (n : Nat) (s : State) :
    Effect s (shiftInto kind rd v n s) := by
  unfold shiftInto
  split
  · exact .register _ _
  · split
    · exact .register _ _
    · exact .fault _

theorem Effect.ofBranch (c : Bool) (target : Word) (s : State) : Effect s (branchIf c target s) := by
  cases c
  · exact .unchanged
  · exact .jump target

theorem Effect.ofLoad (rt : Reg) (a : Int) (n : Nat) (widen : Nat → Word) (s : State) :
    Effect s (loadInto rt a n widen s) := by
  unfold loadInto
  split
  · exact .register _ _
  · exact .fault _

theorem Effect.ofStore (a : Int) (n : Nat) (v : Word) (s : State) : Effect s (storeAt a n v s) := by
  unfold storeAt
  split
  · rename_i t h
    obtain ⟨hb, rfl⟩ := State.memWrite_eq_some.1 h
    exact .store a _ hb
  · exact .fault _

theorem Effect.ofPrintString (s : State) : Effect s (servicePrintString s) := by
  unfold servicePrintString
  simp only
  split
  · exact .print _
  · exact .fault _

theorem Effect.ofReadInteger (s : State) : Effect s (serviceReadInteger s) := by
  unfold serviceReadInteger
  split
  · exact .fault _
  · rename_i line rest h
    split
    · exact .faultAfterRead _ line rest (conReadLine_eq_some h)
    · exact .read line rest _ (conReadLine_eq_some h)

theorem Effect.ofReadBytes (s : State) : Effect s (serviceReadBytes s) := by
  unfold serviceReadBytes
  simp only
  have h := readAtMost_append s.consoleIn (sval (s.reg arg2Reg))
  split
  · exact .read _ _ _ h
  · split
    · rename_i t ht
      obtain ⟨hb, rfl⟩ := State.memWrite_eq_some.1 ht
      exact .readBytes _ _ _ _ h hb
    · exact .faultAfterRead _ _ _ h

theorem Effect.ofReadCharacter (s : State) : Effect s (serviceReadCharacter s) := by
  unfold serviceReadCharacter
  split
  · exact .fault _
  · rename_i b rest h
    exact .read [b] rest _ (by simpa using conReadByte_eq_some h)

theorem Effect.ofSyscall (s : State) : Effect s (execSyscall s) := by
  unfold execSyscall
  simp only
  repeat' split
  · exact .print _
  · exact .ofPrintString s
  · exact .ofReadInteger s
  · exact .ofReadBytes s
  · exact .exit _
  · exact .print _
  · exact .ofReadCharacter s
  · exact .fault _

/-- Every answer of `exec` is one of the listed effects. -/
theorem exec_effect (i : Instr) (s : State) : Effect s (exec i s) := by
  cases i <;>
    first
    | exact .ofWriteReg _ _ s
    | exact .ofDivide _ _ s
    | exact .ofRemainder _ _ _ s
    | exact .ofShift _ _ _ _ s
    | exact .ofBranch _ _ s
    | exact .ofLoad _ _ _ _ s
    | exact .ofStore _ _ _ s
    | exact .hiLo _ _
    | exact .hiLo (s.reg _) s.lo
    | exact .hiLo s.hi (s.reg _)
    | exact .jump _
    | exact .link _
    | exact .unchanged
    | exact .ofSyscall s

/-- What a step can do: raise BadOffset, refuse an illegal record, run the decoded instruction with pc
advanced, or refuse because the run is over. -/
theorem step_cases (s : State) :
    (s.status = .running ∧ s.fetch = none ∧ step s = raise (.badOffset s.pc) s)
    ∨ (∃ w e, s.status = .running ∧ s.fetch = some w ∧ decode w = .error e ∧
        step s = .refused (.illegalRecord s.pc.toNat w))
    ∨ (∃ w i, s.status = .running ∧ s.fetch = some w ∧ decode w = .ok i ∧ step s = exec i s.advance)
    ∨ (s.status ≠ .running ∧ step s = .refused (.halted s.status)) := by
  unfold step
  cases hs : s.status with
  | running =>
    cases hf : s.fetch with
    | none => exact .inl ⟨rfl, rfl, rfl⟩
    | some w =>
      cases hd : decode w with
      | error e => exact .inr (.inl ⟨w, e, rfl, rfl, hd, by simp only [hd]⟩)
      | ok i => exact .inr (.inr (.inl ⟨w, i, rfl, rfl, hd, by simp only [hd]⟩))
  | exited code => exact .inr (.inr (.inr ⟨by simp, rfl⟩))
  | faulted f => exact .inr (.inr (.inr ⟨by simp, rfl⟩))

/-- A step that answers a next state ran the instruction decoded from the fetched record. -/
theorem step_eq_next {s t : State} (h : step s = .next t) :
    ∃ w i, s.status = .running ∧ s.fetch = some w ∧ decode w = .ok i ∧ exec i s.advance = .next t := by
  rcases step_cases s with ⟨_, _, hs⟩ | ⟨w, e, _, _, _, hs⟩ | ⟨w, i, hr, hf, hd, hs⟩ | ⟨_, hs⟩
  · exact absurd (hs.symm.trans h) (raise_ne_next _ _ _)
  · exact nomatch hs.symm.trans h
  · exact ⟨w, i, hr, hf, hd, hs.symm.trans h⟩
  · exact nomatch hs.symm.trans h

/-- The record placed at index `k` is the one fetched there. -/
theorem placeRecord_getElem? (prog : List Record) (k : Nat) (w : Record) : (placeRecord prog k w)[k]? = some w := by
  unfold placeRecord
  split
  · simp [*]
  · rename_i h
    have hlen : (prog ++ List.replicate (k - prog.length) (encode .nop)).length = k := by
      simp only [List.length_append, List.length_replicate]
      omega
    rw [List.getElem?_append_right (by omega), hlen, Nat.sub_self]
    rfl

end Sys2Proof.Machine
end

