-- ==== Sys2Proof/Laws/Image.lean ====
section
/-! SUPPORT. Laws of the load (R250): when the search for an illegal record finds one. -/

namespace Sys2Proof.Machine

/-- No illegal record is found exactly when every record is legal. -/
theorem firstIllegal_eq_none (k : Nat) (ws : List Record) :
    firstIllegal k ws = none ↔ ∀ w ∈ ws, legalRecord w = true := by
  induction ws generalizing k with
  | nil => simp [firstIllegal]
  | cons w ws ih =>
    rw [firstIllegal]
    split
    · rw [ih]; simp [*]
    · simp [*]

/-- An image within the bounds whose records are all legal is loaded. -/
theorem load_eq_next {r : ResetRegs} {img : Image} {input : List Byte}
    (hn : img.records.length ≤ Config.maxRecords)
    (hm : img.data.length + Config.stackSpace ≤ Config.maxMemSize)
    (hl : ∀ w ∈ img.records, legalRecord w = true) : load r img input = .next (loadedState r img input) := by
  unfold load
  rw [if_neg (by omega), if_neg (by omega), (firstIllegal_eq_none 0 img.records).2 hl]

end Sys2Proof.Machine
end

