-- ==== Sys2Proof/Laws/PerInstr.lean ====
section
/-! SUPPORT. The families of lemmas with one lemma for each instruction. FieldsRoundTrip: a well-formed instruction's record fields are read back as the instruction. -/

namespace Sys2Proof.Laws.FieldsRoundTrip

/-- The record fields of a well-formed instruction decode to the instruction. -/
def Statement (i : Instr) : Prop := i.wf = true → ofFields i.fields = .ok i

theorem add (rd rs rt : Reg) : Statement (.add rd rs rt) := fun _ => rfl
theorem addu (rd rs rt : Reg) : Statement (.addu rd rs rt) := fun _ => rfl
theorem addi (rt rs : Reg) (imm : Word) : Statement (.addi rt rs imm) := fun _ => rfl
theorem addiu (rt rs : Reg) (imm : Word) : Statement (.addiu rt rs imm) := fun _ => rfl
theorem and (rd rs rt : Reg) : Statement (.and rd rs rt) := fun _ => rfl
theorem andi (rt rs : Reg) (imm : Word) : Statement (.andi rt rs imm) := fun _ => rfl
theorem or (rd rs rt : Reg) : Statement (.or rd rs rt) := fun _ => rfl
theorem ori (rt rs : Reg) (imm : Word) : Statement (.ori rt rs imm) := fun _ => rfl
theorem xor (rd rs rt : Reg) : Statement (.xor rd rs rt) := fun _ => rfl
theorem xori (rt rs : Reg) (imm : Word) : Statement (.xori rt rs imm) := fun _ => rfl
theorem nor (rd rs rt : Reg) : Statement (.nor rd rs rt) := fun _ => rfl
theorem sub (rd rs rt : Reg) : Statement (.sub rd rs rt) := fun _ => rfl
theorem subu (rd rs rt : Reg) : Statement (.subu rd rs rt) := fun _ => rfl
theorem div (rs rt : Reg) : Statement (.div rs rt) := fun _ => rfl
theorem divu (rs rt : Reg) : Statement (.divu rs rt) := fun _ => rfl
theorem mult (rs rt : Reg) : Statement (.mult rs rt) := fun _ => rfl
theorem multu (rs rt : Reg) : Statement (.multu rs rt) := fun _ => rfl
theorem mul (rd rs rt : Reg) : Statement (.mul rd rs rt) := fun _ => rfl
theorem mulu (rd rs rt : Reg) : Statement (.mulu rd rs rt) := fun _ => rfl
theorem remReg (rd rs rt : Reg) : Statement (.remReg rd rs rt) := fun _ => rfl
theorem remImm (rd rs : Reg) (imm : Word) : Statement (.remImm rd rs imm) := fun _ => rfl
theorem sllReg (rd rt rs : Reg) : Statement (.sllReg rd rt rs) := fun _ => rfl
theorem sllImm (rd rt : Reg) (sa : Word) : Statement (.sllImm rd rt sa) := fun h => by
  have h' : (shiftLiteralOk sa) = true := h
  show (if (_ : Bool) = true then _ else _) = _
  exact if_pos h' 
theorem srlReg (rd rt rs : Reg) : Statement (.srlReg rd rt rs) := fun _ => rfl
theorem srlImm (rd rt : Reg) (sa : Word) : Statement (.srlImm rd rt sa) := fun h => by
  have h' : (shiftLiteralOk sa) = true := h
  show (if (_ : Bool) = true then _ else _) = _
  exact if_pos h' 
theorem sllv (rd rt rs : Reg) : Statement (.sllv rd rt rs) := fun _ => rfl
theorem srlv (rd rt rs : Reg) : Statement (.srlv rd rt rs) := fun _ => rfl
theorem sra (rd rt : Reg) (sa : Word) : Statement (.sra rd rt sa) := fun h => by
  have h' : (shiftLiteralOk sa) = true := h
  show (if (_ : Bool) = true then _ else _) = _
  exact if_pos h' 
theorem srav (rd rt rs : Reg) : Statement (.srav rd rt rs) := fun _ => rfl
theorem slt (rd rs rt : Reg) : Statement (.slt rd rs rt) := fun _ => rfl
theorem sltu (rd rs rt : Reg) : Statement (.sltu rd rs rt) := fun _ => rfl
theorem slti (rt rs : Reg) (imm : Word) : Statement (.slti rt rs imm) := fun _ => rfl
theorem sltiu (rt rs : Reg) (imm : Word) : Statement (.sltiu rt rs imm) := fun _ => rfl
theorem beq (rs rt : Reg) (target : Word) : Statement (.beq rs rt target) := fun _ => rfl
theorem bne (rs rt : Reg) (target : Word) : Statement (.bne rs rt target) := fun _ => rfl
theorem blt (rs rt : Reg) (target : Word) : Statement (.blt rs rt target) := fun _ => rfl
theorem bgt (rs rt : Reg) (target : Word) : Statement (.bgt rs rt target) := fun _ => rfl
theorem bgez (rs : Reg) (target : Word) : Statement (.bgez rs target) := fun _ => rfl
theorem bgtz (rs : Reg) (target : Word) : Statement (.bgtz rs target) := fun _ => rfl
theorem blez (rs : Reg) (target : Word) : Statement (.blez rs target) := fun _ => rfl
theorem j (target : Word) : Statement (.j target) := fun _ => rfl
theorem jal (target : Word) : Statement (.jal target) := fun _ => rfl
theorem jr (rs : Reg) : Statement (.jr rs) := fun _ => rfl
theorem jalr (rs : Reg) : Statement (.jalr rs) := fun _ => rfl
theorem laDirect (rt : Reg) (value : Word) : Statement (.laDirect rt value) := fun _ => rfl
theorem laIndirect (rt base : Reg) (offset : Word) : Statement (.laIndirect rt base offset) := fun _ => rfl
theorem liDirect (rt : Reg) (value : Word) : Statement (.liDirect rt value) := fun _ => rfl
theorem liIndirect (rt base : Reg) (offset : Word) : Statement (.liIndirect rt base offset) := fun _ => rfl
theorem lhi (rt : Reg) (value : Word) : Statement (.lhi rt value) := fun h => by
  have h' : (halfLiteralOk value) = true := h
  show (if (_ : Bool) = true then _ else _) = _
  exact if_pos h' 
theorem llo (rt : Reg) (value : Word) : Statement (.llo rt value) := fun h => by
  have h' : (halfLiteralOk value) = true := h
  show (if (_ : Bool) = true then _ else _) = _
  exact if_pos h' 
theorem lbDirect (rt : Reg) (address : Word) : Statement (.lbDirect rt address) := fun _ => rfl
theorem lbIndirect (rt base : Reg) (offset : Word) : Statement (.lbIndirect rt base offset) := fun _ => rfl
theorem lbuDirect (rt : Reg) (address : Word) : Statement (.lbuDirect rt address) := fun _ => rfl
theorem lbuIndirect (rt base : Reg) (offset : Word) : Statement (.lbuIndirect rt base offset) := fun _ => rfl
theorem lhDirect (rt : Reg) (address : Word) : Statement (.lhDirect rt address) := fun _ => rfl
theorem lhIndirect (rt base : Reg) (offset : Word) : Statement (.lhIndirect rt base offset) := fun _ => rfl
theorem lhuDirect (rt : Reg) (address : Word) : Statement (.lhuDirect rt address) := fun _ => rfl
theorem lhuIndirect (rt base : Reg) (offset : Word) : Statement (.lhuIndirect rt base offset) := fun _ => rfl
theorem lwDirect (rt : Reg) (address : Word) : Statement (.lwDirect rt address) := fun _ => rfl
theorem lwIndirect (rt base : Reg) (offset : Word) : Statement (.lwIndirect rt base offset) := fun _ => rfl
theorem sbDirect (rt : Reg) (address : Word) : Statement (.sbDirect rt address) := fun _ => rfl
theorem sbIndirect (rt base : Reg) (offset : Word) : Statement (.sbIndirect rt base offset) := fun _ => rfl
theorem shDirect (rt : Reg) (address : Word) : Statement (.shDirect rt address) := fun _ => rfl
theorem shIndirect (rt base : Reg) (offset : Word) : Statement (.shIndirect rt base offset) := fun _ => rfl
theorem swDirect (rt : Reg) (address : Word) : Statement (.swDirect rt address) := fun _ => rfl
theorem swIndirect (rt base : Reg) (offset : Word) : Statement (.swIndirect rt base offset) := fun _ => rfl
theorem mfhi (rd : Reg) : Statement (.mfhi rd) := fun _ => rfl
theorem mflo (rd : Reg) : Statement (.mflo rd) := fun _ => rfl
theorem mthi (rs : Reg) : Statement (.mthi rs) := fun _ => rfl
theorem mtlo (rs : Reg) : Statement (.mtlo rs) := fun _ => rfl
theorem move (rd rs : Reg) : Statement (.move rd rs) := fun _ => rfl
theorem nop : Statement .nop := fun _ => rfl
theorem syscall : Statement .syscall := fun _ => rfl

end Sys2Proof.Laws.FieldsRoundTrip
end

