-- ==== Sys2Proof/Tests/Slice0.lean ====
section
/-! SUPPORT. The model's own tests: ill-formed terms, decoding, single steps against the vectors of 95_test_vectors.md, and for each obligation with hypotheses a state that meets them. -/

namespace Sys2Proof.Tests

open Sys2Proof.Machine

/-! ## The set-up of 95_test_vectors.md L2 -/

/-- The record at index 0 of a one-record program, DLEN 16, every register but `$sp` the stand-in. -/
def start (w : Record) : State where
  regs       := (Vector.replicate 32 0xA5A5A5A5#32).set 29 0x00100010#32
  hi         := 0xA5A5A5A5#32
  lo         := 0xA5A5A5A5#32
  pc         := 0#32
  mem        := []
  memSize    := 0x100010
  prog       := [w]
  status     := .running
  consoleIn  := []
  consoleOut := []

/-- The record at index 3, after three `nop` records (L2.44, L2.45). -/
def start3 (w : Record) : State := { start w with prog := [0x3B#64, 0x3B#64, 0x3B#64, w], pc := 3#32 }

/-- The bytes `bs` in memory from `a` up. -/
def poke (a : Nat) (bs : List Byte) (s : State) : State := s.setMem (Memory.writeBytes s.mem a bs)

/-- The next state of a result. -/
def nextOf : Result → Option State
  | .next t => some t
  | _ => none

/-- The fault of a result and its final state. -/
def faultOf : Result → Option (RunFault × State)
  | .fault (.raised f t) => some (f, t)
  | _ => none

/-- The step from `s` gives exactly the state `f s`. -/
def next (s : State) (f : State → Option State) : Bool := nextOf (step s) == f s

/-- The step from `s` raises exactly the fault, with the final state, of `f s`. -/
def faults (s : State) (f : State → Option (RunFault × State)) : Bool := faultOf (step s) == f s

/-! ## Well-formedness: an ill-formed term for each check (R68 (e), (f)) -/

theorem test_wf_refuses_sll_32 : (Instr.sllImm 8 9 32#32).wf = false := by decide
theorem test_wf_refuses_srl_32 : (Instr.srlImm 8 9 32#32).wf = false := by decide
theorem test_wf_refuses_sra_32 : (Instr.sra 8 9 32#32).wf = false := by decide
theorem test_wf_refuses_lhi_65536 : (Instr.lhi 8 65536#32).wf = false := by decide
theorem test_wf_refuses_llo_below : (Instr.llo 8 0xFFFF7FFF#32).wf = false := by decide
theorem test_wf_accepts_bounds :
    (Instr.sllImm 8 9 31#32).wf = true ∧ (Instr.lhi 8 65535#32).wf = true ∧ (Instr.llo 8 0xFFFF8000#32).wf = true := by
  decide

/-! ## Decoding: for every constructor a word of 95_test_vectors.md, or one written out from R62 -/

theorem test_decode_Arith :
    decode 0x0000000001494301#64 = .ok (.add 8 9 10) ∧
    decode 0x0000000001494302#64 = .ok (.addu 8 9 10) ∧
    decode 0xFFFFFFF900094403#64 = .ok (.addi 8 9 0xFFFFFFF9#32) ∧
    decode 0x0000000200094404#64 = .ok (.addiu 8 9 0x00000002#32) ∧
    decode 0x0000000001494305#64 = .ok (.and 8 9 10) ∧
    decode 0x0000FFFF00094406#64 = .ok (.andi 8 9 0x0000FFFF#32) ∧
    decode 0x0000000001494307#64 = .ok (.or 8 9 10) ∧
    decode 0x0000567800094408#64 = .ok (.ori 8 9 0x00005678#32) ∧
    decode 0x0000000001492309#64 = .ok (.xor 4 9 10) ∧
    decode 0xFFFFFFFF0009440A#64 = .ok (.xori 8 9 0xFFFFFFFF#32) ∧
    decode 0x000000000149430B#64 = .ok (.nor 8 9 10) ∧
    decode 0x000000000149430C#64 = .ok (.sub 8 9 10) ∧
    decode 0x000000000149430D#64 = .ok (.subu 8 9 10) := by decide

theorem test_decode_MulDiv :
    decode 0x000000000009420E#64 = .ok (.div 8 9) ∧
    decode 0x000000000009420F#64 = .ok (.divu 8 9) ∧
    decode 0x0000000000094210#64 = .ok (.mult 8 9) ∧
    decode 0x0000000000094211#64 = .ok (.multu 8 9) ∧
    decode 0x0000000001285312#64 = .ok (.mul 10 8 9) ∧
    decode 0x0000000001285313#64 = .ok (.mulu 10 8 9) ∧
    decode 0x0000000001285314#64 = .ok (.remReg 10 8 9) ∧
    decode 0xFFFFFFFF00085414#64 = .ok (.remImm 10 8 0xFFFFFFFF#32) := by decide

theorem test_decode_Shift :
    decode 0x0000000001494315#64 = .ok (.sllReg 8 9 10) ∧
    decode 0x0000001F00094415#64 = .ok (.sllImm 8 9 0x0000001F#32) ∧
    decode 0x0000000001494316#64 = .ok (.srlReg 8 9 10) ∧
    decode 0x0000001F00094416#64 = .ok (.srlImm 8 9 0x0000001F#32) ∧
    decode 0x0000000001494317#64 = .ok (.sllv 8 9 10) ∧
    decode 0x0000000001494318#64 = .ok (.srlv 8 9 10) ∧
    decode 0x0000000100094419#64 = .ok (.sra 8 9 0x00000001#32) ∧
    decode 0x000000000149431A#64 = .ok (.srav 8 9 10) := by decide

theorem test_decode_Compare :
    decode 0x000000000149431B#64 = .ok (.slt 8 9 10) ∧
    decode 0x000000000149431C#64 = .ok (.sltu 8 9 10) ∧
    decode 0xFFFFFFFC0009441D#64 = .ok (.slti 8 9 0xFFFFFFFC#32) ∧
    decode 0x000000010009441E#64 = .ok (.sltiu 8 9 0x00000001#32) := by decide

theorem test_decode_Branch :
    decode 0x000000070009441F#64 = .ok (.beq 8 9 0x00000007#32) ∧
    decode 0x0000000400094420#64 = .ok (.bne 8 9 0x00000004#32) ∧
    decode 0x0000000100094421#64 = .ok (.blt 8 9 0x00000001#32) ∧
    decode 0x0000000100094422#64 = .ok (.bgt 8 9 0x00000001#32) ∧
    decode 0x0000000100004523#64 = .ok (.bgez 8 0x00000001#32) ∧
    decode 0x0000000100004524#64 = .ok (.bgtz 8 0x00000001#32) ∧
    decode 0x0000000100004525#64 = .ok (.blez 8 0x00000001#32) := by decide

theorem test_decode_Jump :
    decode 0x0000000300000726#64 = .ok (.j 0x00000003#32) ∧
    decode 0x0000000A00000727#64 = .ok (.jal 0x0000000A#32) ∧
    decode 0x000000000000F928#64 = .ok (.jr 31) ∧
    decode 0x000000000000C929#64 = .ok (.jalr 25) := by decide

theorem test_decode_LoadImmediate :
    decode 0x000000100000452A#64 = .ok (.laDirect 8 0x00000010#32) ∧
    decode 0x00000008001D462A#64 = .ok (.laIndirect 8 29 0x00000008#32) ∧
    decode 0x0000000A0000152B#64 = .ok (.liDirect 2 0x0000000A#32) ∧
    decode 0x000000010009462B#64 = .ok (.liIndirect 8 9 0x00000001#32) ∧
    decode 0x0000DEAD0000452C#64 = .ok (.lhi 8 0x0000DEAD#32) ∧
    decode 0xFFFF80000000452D#64 = .ok (.llo 8 0xFFFF8000#32) := by decide

theorem test_decode_LoadStore :
    decode 0x000000040000452E#64 = .ok (.lbDirect 8 0x00000004#32) ∧
    decode 0xFFFFFFFF0009462E#64 = .ok (.lbIndirect 8 9 0xFFFFFFFF#32) ∧
    decode 0x000000040000452F#64 = .ok (.lbuDirect 8 0x00000004#32) ∧
    decode 0x00000000001D5E2F#64 = .ok (.lbuIndirect 11 29 0x00000000#32) ∧
    decode 0x0000000500004530#64 = .ok (.lhDirect 8 0x00000005#32) ∧
    decode 0x00000002001D4E30#64 = .ok (.lhIndirect 9 29 0x00000002#32) ∧
    decode 0x0000000500004531#64 = .ok (.lhuDirect 8 0x00000005#32) ∧
    decode 0x00000000001D5631#64 = .ok (.lhuIndirect 10 29 0x00000000#32) ∧
    decode 0x0000000200004532#64 = .ok (.lwDirect 8 0x00000002#32) ∧
    decode 0xFFFFFFFC001D4632#64 = .ok (.lwIndirect 8 29 0xFFFFFFFC#32) ∧
    decode 0x0000000900004533#64 = .ok (.sbDirect 8 0x00000009#32) ∧
    decode 0x00000007001D4633#64 = .ok (.sbIndirect 8 29 0x00000007#32) ∧
    decode 0x0000000900004534#64 = .ok (.shDirect 8 0x00000009#32) ∧
    decode 0xFFFFFFFE001D4634#64 = .ok (.shIndirect 8 29 0xFFFFFFFE#32) ∧
    decode 0x0000000900004535#64 = .ok (.swDirect 8 0x00000009#32) ∧
    decode 0xFFFFFFFC001D4635#64 = .ok (.swIndirect 8 29 0xFFFFFFFC#32) := by decide

theorem test_decode_Move :
    decode 0x0000000000004136#64 = .ok (.mfhi 8) ∧
    decode 0x0000000000004137#64 = .ok (.mflo 8) ∧
    decode 0x0000000000004938#64 = .ok (.mthi 9) ∧
    decode 0x0000000000004939#64 = .ok (.mtlo 9) ∧
    decode 0x000000000008223A#64 = .ok (.move 4 8) := by decide

theorem test_decode_System :
    decode 0x000000000000003B#64 = .ok (.nop) ∧
    decode 0x000000000000003C#64 = .ok (.syscall) := by decide

/-- L2.0 #1: the fields of `add $t0, $t1, $t2`. -/
theorem test_unpack_fields : unpack 0x0000000001494301#64 = ⟨1, .rrr, 8, 9, 10, 0, 0#32⟩ := by decide

/-- L2.0 #7 to #14: illegal records. -/
theorem test_illegal_records :
    ([0x0000000000000000#64, 0x000000000000003D#64, 0x0000000001494401#64, 0x000000000400003B#64, 0x000000000001F928#64,
      0x0000002000094415#64, 0x0000000001494319#64, 0x000100000000452C#64].map legalRecord).all (· == false) = true := by decide

/-- The reasons the decoder names (log 7). -/
theorem test_decode_reasons :
    decode 0x000000000000003D#64 = .error .reservedTag ∧ decode 0x000000000400003B#64 = .error .reservedBits ∧
    decode 0x000000000001F928#64 = .error .unusedField ∧ decode 0x0000000001494319#64 = .error .illegalForm ∧
    decode 0x0000002000094415#64 = .error .operandRange := by decide

/-- decodeTableWord and withFetchWord: the next step runs `addu $t0, $t1, $t2`. -/
theorem test_withFetchWord :
    decodeTableWord 64 0x0000000001494302 = some (.addu 8 9 10) ∧
    (nextOf (step (State.reset.withFetchWord 64 0x0000000001494302))).map State.pc = some 1#32 := by decide

/-- L2.0 #16: the empty program's first step raises BadOffset(0). -/
theorem test_empty_program : (faultOf (step State.reset)).map Prod.fst = some (.badOffset 0#32) := by decide

/-! ## One step: the vectors of 95_test_vectors.md, sections L2.40 to L2.49 -/

/-- L2.40 #1: `add $t0, $t1, $t2`, signed overflow wraps, no trap. -/
theorem test_add_1 : next ((start 0x0000000001494301#64) |>.setReg 9 0x7FFFFFFF#32 |>.setReg 10 0x00000001#32)
    (fun s => some (s |>.setReg 8 0x80000000#32 |>.setPc 1#32)) = true := by decide

/-- L2.40 #3: `add $t0, $t1, $t2`, negative overflow wraps to 0. -/
theorem test_add_2 : next ((start 0x0000000001494301#64) |>.setReg 9 0x80000000#32 |>.setReg 10 0x80000000#32)
    (fun s => some (s |>.setReg 8 0x00000000#32 |>.setPc 1#32)) = true := by decide

/-- L2.40 #4: `addu $t0, $t1, $t2`, carry dropped. -/
theorem test_addu_1 : next ((start 0x0000000001494302#64) |>.setReg 9 0xFFFFFFFF#32 |>.setReg 10 0x00000001#32)
    (fun s => some (s |>.setReg 8 0x00000000#32 |>.setPc 1#32)) = true := by decide

/-- L2.40 #6: `addi $t0, $t1, 65536`, immediate wider than 16 bits. -/
theorem test_addi_1 : next ((start 0x0001000000094403#64) |>.setReg 9 0x00000001#32)
    (fun s => some (s |>.setReg 8 0x00010001#32 |>.setPc 1#32)) = true := by decide

/-- L2.40 #7: `addiu $t0, $t1, 2`, wraps to 1. -/
theorem test_addiu_1 : next ((start 0x0000000200094404#64) |>.setReg 9 0xFFFFFFFF#32)
    (fun s => some (s |>.setReg 8 0x00000001#32 |>.setPc 1#32)) = true := by decide

/-- L2.40 #8: `addiu $zero, $zero, 5`, register 0 is written and keeps 5 (10_state.md R22). -/
theorem test_addiu_2 : next ((start 0x0000000500000404#64) |>.setReg 0 0x00000000#32)
    (fun s => some (s |>.setReg 0 0x00000005#32 |>.setPc 1#32)) = true := by decide

/-- L2.40 #9: `and $t0, $t1, $t2`. -/
theorem test_and_1 : next ((start 0x0000000001494305#64) |>.setReg 9 0xF0F0F0F0#32 |>.setReg 10 0x0FF00FF0#32)
    (fun s => some (s |>.setReg 8 0x00F000F0#32 |>.setPc 1#32)) = true := by decide

/-- L2.40 #11: `andi $t0, $t1, -1`, all 32 bits of imm used (D18). -/
theorem test_andi_1 : next ((start 0xFFFFFFFF00094406#64) |>.setReg 9 0x12345678#32)
    (fun s => some (s |>.setReg 8 0x12345678#32 |>.setPc 1#32)) = true := by decide

/-- L2.40 #12: `or $t0, $t1, $t2`. -/
theorem test_or_1 : next ((start 0x0000000001494307#64) |>.setReg 9 0xF0F0F0F0#32 |>.setReg 10 0x0F0F0F0F#32)
    (fun s => some (s |>.setReg 8 0xFFFFFFFF#32 |>.setPc 1#32)) = true := by decide

/-- L2.40 #13: `ori $t0, $t1, 22136`. -/
theorem test_ori_1 : next ((start 0x0000567800094408#64) |>.setReg 9 0x12340000#32)
    (fun s => some (s |>.setReg 8 0x12345678#32 |>.setPc 1#32)) = true := by decide

/-- L2.40 #14: `ori $t0, $t1, -65536`, negative imm sets high bits (D18). -/
theorem test_ori_2 : next ((start 0xFFFF000000094408#64) |>.setReg 9 0x00001234#32)
    (fun s => some (s |>.setReg 8 0xFFFF1234#32 |>.setPc 1#32)) = true := by decide

/-- L2.40 #15: `xor $t0, $t1, $t1`, same source gives 0. -/
theorem test_xor_1 : next ((start 0x0000000001294309#64) |>.setReg 9 0xDEADBEEF#32)
    (fun s => some (s |>.setReg 8 0x00000000#32 |>.setPc 1#32)) = true := by decide

/-- L2.40 #16: `xori $t0, $t1, -1`, imm = -1 complements. -/
theorem test_xori_1 : next ((start 0xFFFFFFFF0009440A#64) |>.setReg 9 0x0000FFFF#32)
    (fun s => some (s |>.setReg 8 0xFFFF0000#32 |>.setPc 1#32)) = true := by decide

/-- L2.40 #17: `nor $t0, $t1, $t1`, NOT. -/
theorem test_nor_1 : next ((start 0x000000000129430B#64) |>.setReg 9 0x0F0F0F0F#32)
    (fun s => some (s |>.setReg 8 0xF0F0F0F0#32 |>.setPc 1#32)) = true := by decide

/-- L2.40 #18: `nor $t0, $t1, $t2`. -/
theorem test_nor_2 : next ((start 0x000000000149430B#64) |>.setReg 9 0xF0F0F0F0#32 |>.setReg 10 0x0F0F0000#32)
    (fun s => some (s |>.setReg 8 0x00000F0F#32 |>.setPc 1#32)) = true := by decide

/-- L2.40 #19: `sub $t0, $t1, $t2`, signed overflow wraps. -/
theorem test_sub_1 : next ((start 0x000000000149430C#64) |>.setReg 9 0x80000000#32 |>.setReg 10 0x00000001#32)
    (fun s => some (s |>.setReg 8 0x7FFFFFFF#32 |>.setPc 1#32)) = true := by decide

/-- L2.40 #20: `sub $t0, $t1, $t1`, x - x = 0. -/
theorem test_sub_2 : next ((start 0x000000000129430C#64) |>.setReg 9 0x12345678#32)
    (fun s => some (s |>.setReg 8 0x00000000#32 |>.setPc 1#32)) = true := by decide

/-- L2.40 #21: `subu $t0, $t1, $t2`, borrow wraps. -/
theorem test_subu_1 : next ((start 0x000000000149430D#64) |>.setReg 9 0x00000000#32 |>.setReg 10 0x00000001#32)
    (fun s => some (s |>.setReg 8 0xFFFFFFFF#32 |>.setPc 1#32)) = true := by decide

/-- L2.41 #2: `div $t0, $t1`, - / +: quotient toward zero, remainder has the dividend's sign. -/
theorem test_div_1 : next ((start 0x000000000009420E#64) |>.setReg 8 0xFFFFFFF9#32 |>.setReg 9 0x00000002#32)
    (fun s => some (s |>.setHi 0xFFFFFFFF#32 |>.setLo 0xFFFFFFFD#32 |>.setPc 1#32)) = true := by decide

/-- L2.41 #5: `div $t0, $t1`, -2^31 / -1: quotient wraps to -2^31. -/
theorem test_div_2 : next ((start 0x000000000009420E#64) |>.setReg 8 0x80000000#32 |>.setReg 9 0xFFFFFFFF#32)
    (fun s => some (s |>.setHi 0x00000000#32 |>.setLo 0x80000000#32 |>.setPc 1#32)) = true := by decide

/-- L2.41 #9: `divu $t0, $t1`, dividend read unsigned. -/
theorem test_divu_1 : next ((start 0x000000000009420F#64) |>.setReg 8 0xFFFFFFF9#32 |>.setReg 9 0x00000002#32)
    (fun s => some (s |>.setHi 0x00000001#32 |>.setLo 0x7FFFFFFC#32 |>.setPc 1#32)) = true := by decide

/-- L2.41 #10: `divu $t0, $t1`, divide by zero (D14). -/
theorem test_divu_2 : faults ((start 0x000000000009420F#64) |>.setReg 8 0x00000001#32 |>.setReg 9 0x00000000#32)
    (fun s => some (.divideByZero 0#32, s |>.setPc 1#32 |>.setStatus (.faulted (.divideByZero 0#32)))) = true := by decide

/-- L2.41 #11: `mult $t0, $t1`, source §8 example. -/
theorem test_mult_1 : next ((start 0x0000000000094210#64) |>.setReg 8 0x80000000#32 |>.setReg 9 0x00000002#32)
    (fun s => some (s |>.setHi 0xFFFFFFFF#32 |>.setLo 0x00000000#32 |>.setPc 1#32)) = true := by decide

/-- L2.41 #13: `mult $t0, $t1`, negative product: HI all ones. -/
theorem test_mult_2 : next ((start 0x0000000000094210#64) |>.setReg 8 0xFFFFFFFD#32 |>.setReg 9 0x00000005#32)
    (fun s => some (s |>.setHi 0xFFFFFFFF#32 |>.setLo 0xFFFFFFF1#32 |>.setPc 1#32)) = true := by decide

/-- L2.41 #14: `multu $t0, $t1`, same bits as the mult example, unsigned. -/
theorem test_multu_1 : next ((start 0x0000000000094211#64) |>.setReg 8 0x80000000#32 |>.setReg 9 0x00000002#32)
    (fun s => some (s |>.setHi 0x00000001#32 |>.setLo 0x00000000#32 |>.setPc 1#32)) = true := by decide

/-- L2.41 #15: `multu $t0, $t1`, largest product. -/
theorem test_multu_2 : next ((start 0x0000000000094211#64) |>.setReg 8 0xFFFFFFFF#32 |>.setReg 9 0xFFFFFFFF#32)
    (fun s => some (s |>.setHi 0xFFFFFFFE#32 |>.setLo 0x00000001#32 |>.setPc 1#32)) = true := by decide

/-- L2.41 #17: `mul $t2, $t0, $t1`, high half lost. -/
theorem test_mul_1 : next ((start 0x0000000001285312#64) |>.setReg 8 0x80000000#32 |>.setReg 9 0x00000002#32)
    (fun s => some (s |>.setReg 10 0x00000000#32 |>.setPc 1#32)) = true := by decide

/-- L2.41 #18: `mulu $t2, $t0, $t1`, 2^32 wraps to 0. -/
theorem test_mulu_1 : next ((start 0x0000000001285313#64) |>.setReg 8 0x00010000#32 |>.setReg 9 0x00010000#32)
    (fun s => some (s |>.setReg 10 0x00000000#32 |>.setPc 1#32)) = true := by decide

/-- L2.41 #19: `rem $t2, $t0, $t1`, remainder takes the dividend's sign (D15). -/
theorem test_remReg_1 : next ((start 0x0000000001285314#64) |>.setReg 8 0xFFFFFFF9#32 |>.setReg 9 0x00000002#32)
    (fun s => some (s |>.setReg 10 0xFFFFFFFF#32 |>.setPc 1#32)) = true := by decide

/-- L2.41 #20: `rem $t2, $t0, $t1`. -/
theorem test_remReg_2 : next ((start 0x0000000001285314#64) |>.setReg 8 0x00000007#32 |>.setReg 9 0xFFFFFFFE#32)
    (fun s => some (s |>.setReg 10 0x00000001#32 |>.setPc 1#32)) = true := by decide

/-- L2.41 #21: `rem $t2, $t0, -1`, -2^31 rem -1 = 0. -/
theorem test_remImm_1 : next ((start 0xFFFFFFFF00085414#64) |>.setReg 8 0x80000000#32)
    (fun s => some (s |>.setReg 10 0x00000000#32 |>.setPc 1#32)) = true := by decide

/-- L2.41 #22: `rem $t2, $t0, 3`, literal divisor. -/
theorem test_remImm_2 : next ((start 0x0000000300085414#64) |>.setReg 8 0xFFFFFFF6#32)
    (fun s => some (s |>.setReg 10 0xFFFFFFFF#32 |>.setPc 1#32)) = true := by decide

/-- L2.42 #3: `sll $t0, $t1, $t2`, register form. -/
theorem test_sllReg_1 : next ((start 0x0000000001494315#64) |>.setReg 9 0x0000000F#32 |>.setReg 10 0x00000004#32)
    (fun s => some (s |>.setReg 8 0x000000F0#32 |>.setPc 1#32)) = true := by decide

/-- L2.42 #2: `sll $t0, $t1, 31`, bits past bit 31 lost. -/
theorem test_sllImm_1 : next ((start 0x0000001F00094415#64) |>.setReg 9 0x00000003#32)
    (fun s => some (s |>.setReg 8 0x80000000#32 |>.setPc 1#32)) = true := by decide

/-- L2.42 #7: `srl $t0, $t1, $t2`, register form. -/
theorem test_srlReg_1 : next ((start 0x0000000001494316#64) |>.setReg 9 0x80000000#32 |>.setReg 10 0x0000001F#32)
    (fun s => some (s |>.setReg 8 0x00000001#32 |>.setPc 1#32)) = true := by decide

/-- L2.42 #5: `srl $t0, $t1, 31`. -/
theorem test_srlImm_1 : next ((start 0x0000001F00094416#64) |>.setReg 9 0x80000000#32)
    (fun s => some (s |>.setReg 8 0x00000001#32 |>.setPc 1#32)) = true := by decide

/-- L2.42 #6: `srl $t0, $t1, 4`, zero fill. -/
theorem test_srlImm_2 : next ((start 0x0000000400094416#64) |>.setReg 9 0xF0000000#32)
    (fun s => some (s |>.setReg 8 0x0F000000#32 |>.setPc 1#32)) = true := by decide

/-- L2.42 #8: `sllv $t0, $t1, $t2`. -/
theorem test_sllv_1 : next ((start 0x0000000001494317#64) |>.setReg 9 0x12345678#32 |>.setReg 10 0x00000008#32)
    (fun s => some (s |>.setReg 8 0x34567800#32 |>.setPc 1#32)) = true := by decide

/-- L2.42 #11: `srlv $t0, $t1, $t2`. -/
theorem test_srlv_1 : next ((start 0x0000000001494318#64) |>.setReg 9 0x12345678#32 |>.setReg 10 0x00000008#32)
    (fun s => some (s |>.setReg 8 0x00123456#32 |>.setPc 1#32)) = true := by decide

/-- L2.42 #13: `sra $t0, $t1, 1`, source §8 example. -/
theorem test_sra_1 : next ((start 0x0000000100094419#64) |>.setReg 9 0x80000000#32)
    (fun s => some (s |>.setReg 8 0xC0000000#32 |>.setPc 1#32)) = true := by decide

/-- L2.42 #15: `sra $t0, $t1, 31`. -/
theorem test_sra_2 : next ((start 0x0000001F00094419#64) |>.setReg 9 0x7FFFFFFF#32)
    (fun s => some (s |>.setReg 8 0x00000000#32 |>.setPc 1#32)) = true := by decide

/-- L2.42 #17: `srav $t0, $t1, $t2`. -/
theorem test_srav_1 : next ((start 0x000000000149431A#64) |>.setReg 9 0xF0000000#32 |>.setReg 10 0x00000004#32)
    (fun s => some (s |>.setReg 8 0xFF000000#32 |>.setPc 1#32)) = true := by decide

/-- L2.42 #18: `srav $t0, $t1, $t2`. -/
theorem test_srav_2 : next ((start 0x000000000149431A#64) |>.setReg 9 0x70000000#32 |>.setReg 10 0x0000001F#32)
    (fun s => some (s |>.setReg 8 0x00000000#32 |>.setPc 1#32)) = true := by decide

/-- L2.43 #1: `slt $t0, $t1, $t2`, source §8 example. -/
theorem test_slt_1 : next ((start 0x000000000149431B#64) |>.setReg 9 0xFFFFFFFF#32 |>.setReg 10 0x00000001#32)
    (fun s => some (s |>.setReg 8 0x00000001#32 |>.setPc 1#32)) = true := by decide

/-- L2.43 #2: `slt $t0, $t1, $t1`, equal gives 0. -/
theorem test_slt_2 : next ((start 0x000000000129431B#64) |>.setReg 9 0x00000005#32)
    (fun s => some (s |>.setReg 8 0x00000000#32 |>.setPc 1#32)) = true := by decide

/-- L2.43 #4: `sltu $t0, $t1, $t2`, source §8 example. -/
theorem test_sltu_1 : next ((start 0x000000000149431C#64) |>.setReg 9 0xFFFFFFFF#32 |>.setReg 10 0x00000001#32)
    (fun s => some (s |>.setReg 8 0x00000000#32 |>.setPc 1#32)) = true := by decide

/-- L2.43 #5: `sltu $t0, $zero, $t2`, x[0] = 0 here. -/
theorem test_sltu_2 : next ((start 0x000000000140431C#64) |>.setReg 0 0x00000000#32 |>.setReg 10 0x00000007#32)
    (fun s => some (s |>.setReg 8 0x00000001#32 |>.setPc 1#32)) = true := by decide

/-- L2.43 #6: `slti $t0, $t1, -4`. -/
theorem test_slti_1 : next ((start 0xFFFFFFFC0009441D#64) |>.setReg 9 0xFFFFFFFB#32)
    (fun s => some (s |>.setReg 8 0x00000001#32 |>.setPc 1#32)) = true := by decide

/-- L2.43 #7: `slti $t0, $t1, -2147483648`, least value is not below itself. -/
theorem test_slti_2 : next ((start 0x800000000009441D#64) |>.setReg 9 0x80000000#32)
    (fun s => some (s |>.setReg 8 0x00000000#32 |>.setPc 1#32)) = true := by decide

/-- L2.43 #8: `sltiu $t0, $t1, 1`. -/
theorem test_sltiu_1 : next ((start 0x000000010009441E#64) |>.setReg 9 0xFFFFFFFF#32)
    (fun s => some (s |>.setReg 8 0x00000000#32 |>.setPc 1#32)) = true := by decide

/-- L2.43 #9: `sltiu $t0, $t1, -1`, imm -1 read as 0xFFFFFFFF. -/
theorem test_sltiu_2 : next ((start 0xFFFFFFFF0009441E#64) |>.setReg 9 0xFFFFFFFE#32)
    (fun s => some (s |>.setReg 8 0x00000001#32 |>.setPc 1#32)) = true := by decide

/-- L2.44 #1: `beq $t0, $t1, 7`, taken; target 7 >= N faults only at the next fetch (BadOffset(7)). -/
theorem test_beq_1 : next ((start3 0x000000070009441F#64) |>.setReg 8 0x00000009#32 |>.setReg 9 0x00000009#32)
    (fun s => some (s |>.setPc 7#32)) = true := by decide

/-- L2.44 #2: `beq $t0, $t1, 7`, not taken: pc = 4 = N, so the next fetch raises BadOffset(4). -/
theorem test_beq_2 : next ((start3 0x000000070009441F#64) |>.setReg 8 0x00000009#32 |>.setReg 9 0x00000008#32)
    (fun s => some (s |>.setPc 4#32)) = true := by decide

/-- L2.44 #3: `bne $t0, $t1, 0`, taken, backward. -/
theorem test_bne_1 : next ((start3 0x0000000000094420#64) |>.setReg 8 0x00000001#32 |>.setReg 9 0x00000002#32)
    (fun s => some (s |>.setPc 0#32)) = true := by decide

/-- L2.44 #4: `bne $t0, $t0, 0`, never taken with rs = rt. -/
theorem test_bne_2 : next ((start3 0x0000000000084420#64) |>.setReg 8 0x00000001#32)
    (fun s => some (s |>.setPc 4#32)) = true := by decide

/-- L2.44 #5: `blt $t0, $t1, 1`, signed: taken. -/
theorem test_blt_1 : next ((start3 0x0000000100094421#64) |>.setReg 8 0xFFFFFFFF#32 |>.setReg 9 0x00000001#32)
    (fun s => some (s |>.setPc 1#32)) = true := by decide

/-- L2.44 #6: `blt $t0, $t1, 1`, signed: not taken. -/
theorem test_blt_2 : next ((start3 0x0000000100094421#64) |>.setReg 8 0x00000001#32 |>.setReg 9 0xFFFFFFFF#32)
    (fun s => some (s |>.setPc 4#32)) = true := by decide

/-- L2.44 #7: `bgt $t0, $t1, 1`, not taken. -/
theorem test_bgt_1 : next ((start3 0x0000000100094422#64) |>.setReg 8 0x80000000#32 |>.setReg 9 0x00000000#32)
    (fun s => some (s |>.setPc 4#32)) = true := by decide

/-- L2.44 #8: `bgt $t0, $t1, 1`, equal not taken. -/
theorem test_bgt_2 : next ((start3 0x0000000100094422#64) |>.setReg 8 0x00000003#32 |>.setReg 9 0x00000003#32)
    (fun s => some (s |>.setPc 4#32)) = true := by decide

/-- L2.44 #10: `bgez $t0, 1`, zero taken. -/
theorem test_bgez_1 : next ((start3 0x0000000100004523#64) |>.setReg 8 0x00000000#32)
    (fun s => some (s |>.setPc 1#32)) = true := by decide

/-- L2.44 #11: `bgez $t0, 1`, negative not taken. -/
theorem test_bgez_2 : next ((start3 0x0000000100004523#64) |>.setReg 8 0x80000000#32)
    (fun s => some (s |>.setPc 4#32)) = true := by decide

/-- L2.44 #12: `bgtz $t0, 1`, zero not taken. -/
theorem test_bgtz_1 : next ((start3 0x0000000100004524#64) |>.setReg 8 0x00000000#32)
    (fun s => some (s |>.setPc 4#32)) = true := by decide

/-- L2.44 #13: `bgtz $t0, 1`. -/
theorem test_bgtz_2 : next ((start3 0x0000000100004524#64) |>.setReg 8 0x7FFFFFFF#32)
    (fun s => some (s |>.setPc 1#32)) = true := by decide

/-- L2.44 #14: `blez $t0, 1`. -/
theorem test_blez_1 : next ((start3 0x0000000100004525#64) |>.setReg 8 0x80000000#32)
    (fun s => some (s |>.setPc 1#32)) = true := by decide

/-- L2.44 #15: `blez $t0, 1`, not taken. -/
theorem test_blez_2 : next ((start3 0x0000000100004525#64) |>.setReg 8 0x00000001#32)
    (fun s => some (s |>.setPc 4#32)) = true := by decide

/-- L2.45 #1: `j 0`. -/
theorem test_j_1 : next ((start3 0x0000000000000726#64))
    (fun s => some (s |>.setPc 0#32)) = true := by decide

/-- L2.45 #2: `j 3`, jump to itself: an endless loop (70_reset_and_hazards.md R257). -/
theorem test_j_2 : next ((start3 0x0000000300000726#64))
    (fun s => some (s |>.setPc 3#32)) = true := by decide

/-- L2.45 #3: `jal 10`, link is the index 4. -/
theorem test_jal_1 : next ((start3 0x0000000A00000727#64))
    (fun s => some (s |>.setReg 31 0x00000004#32 |>.setPc 10#32)) = true := by decide

/-- L2.45 #4: `jr $ra`. -/
theorem test_jr_1 : next ((start3 0x000000000000F928#64) |>.setReg 31 0x00000001#32)
    (fun s => some (s |>.setPc 1#32)) = true := by decide

/-- L2.45 #5: `jr $t0`, target not checked here; the next fetch raises BadOffset(4294967295). -/
theorem test_jr_2 : next ((start3 0x0000000000004128#64) |>.setReg 8 0xFFFFFFFF#32)
    (fun s => some (s |>.setPc 4294967295#32)) = true := by decide

/-- L2.45 #6: `jalr $t9`. -/
theorem test_jalr_1 : next ((start3 0x000000000000C929#64) |>.setReg 25 0x00000002#32)
    (fun s => some (s |>.setReg 31 0x00000004#32 |>.setPc 2#32)) = true := by decide

/-- L2.45 #7: `jalr $ra`, rs = 31: the old value is the target (D23). -/
theorem test_jalr_2 : next ((start3 0x000000000000F929#64) |>.setReg 31 0x00000000#32)
    (fun s => some (s |>.setReg 31 0x00000004#32 |>.setPc 0#32)) = true := by decide

/-- L2.46 #1: `la $t0, 16`, a data label at offset 16. -/
theorem test_laDirect_1 : next ((start 0x000000100000452A#64))
    (fun s => some (s |>.setReg 8 0x00000010#32 |>.setPc 1#32)) = true := by decide

/-- L2.46 #2: `la $t0, 8($sp)`. -/
theorem test_laIndirect_1 : next ((start 0x00000008001D462A#64) |>.setReg 29 0x00100010#32)
    (fun s => some (s |>.setReg 8 0x00100018#32 |>.setPc 1#32)) = true := by decide

/-- L2.46 #3: `la $t0, -8($t1)`, wraps modulo 2^32, no fault. -/
theorem test_laIndirect_2 : next ((start 0xFFFFFFF80009462A#64) |>.setReg 9 0x00000004#32)
    (fun s => some (s |>.setReg 8 0xFFFFFFFC#32 |>.setPc 1#32)) = true := by decide

/-- L2.46 #4: `li $v0, 10`. -/
theorem test_liDirect_1 : next ((start 0x0000000A0000152B#64))
    (fun s => some (s |>.setReg 2 0x0000000A#32 |>.setPc 1#32)) = true := by decide

/-- L2.46 #5: `li $t0, -1`. -/
theorem test_liDirect_2 : next ((start 0xFFFFFFFF0000452B#64))
    (fun s => some (s |>.setReg 8 0xFFFFFFFF#32 |>.setPc 1#32)) = true := by decide

/-- L2.46 #7: `li $t0, 1($t1)`, form RI, as for la. -/
theorem test_liIndirect_1 : next ((start 0x000000010009462B#64) |>.setReg 9 0xFFFFFFFF#32)
    (fun s => some (s |>.setReg 8 0x00000000#32 |>.setPc 1#32)) = true := by decide

/-- L2.46 #8: `lhi $t0, 57005`, low half kept. -/
theorem test_lhi_1 : next ((start 0x0000DEAD0000452C#64) |>.setReg 8 0x0000BEEF#32)
    (fun s => some (s |>.setReg 8 0xDEADBEEF#32 |>.setPc 1#32)) = true := by decide

/-- L2.46 #9: `lhi $t0, -1`, -1 gives upper half 0xFFFF. -/
theorem test_lhi_2 : next ((start 0xFFFFFFFF0000452C#64) |>.setReg 8 0x00001234#32)
    (fun s => some (s |>.setReg 8 0xFFFF1234#32 |>.setPc 1#32)) = true := by decide

/-- L2.46 #10: `llo $t0, 48879`, upper half kept. -/
theorem test_llo_1 : next ((start 0x0000BEEF0000452D#64) |>.setReg 8 0xDEAD0000#32)
    (fun s => some (s |>.setReg 8 0xDEADBEEF#32 |>.setPc 1#32)) = true := by decide

/-- L2.46 #11: `llo $t0, -1`, -1 gives lower half 0xFFFF. -/
theorem test_llo_2 : next ((start 0xFFFFFFFF0000452D#64) |>.setReg 8 0x12340000#32)
    (fun s => some (s |>.setReg 8 0x1234FFFF#32 |>.setPc 1#32)) = true := by decide

/-- L2.47 #1: `lb $t0, 4`, sign-extended. -/
theorem test_lbDirect_1 : next ((start 0x000000040000452E#64) |> poke 0x4 [0x9C#8])
    (fun s => some (s |>.setReg 8 0xFFFFFF9C#32 |>.setPc 1#32)) = true := by decide

/-- L2.47 #3: `lb $t0, 4`, positive byte. -/
theorem test_lbDirect_2 : next ((start 0x000000040000452E#64) |> poke 0x4 [0x7F#8])
    (fun s => some (s |>.setReg 8 0x0000007F#32 |>.setPc 1#32)) = true := by decide

/-- L2.47 #12: `lb $t0, -1($t1)`, negative address. -/
theorem test_lbIndirect_1 : faults ((start 0xFFFFFFFF0009462E#64) |>.setReg 9 0x00000000#32)
    (fun s => some (.memoryBounds (-0x1) 1 0#32, s |>.setPc 1#32 |>.setStatus (.faulted (.memoryBounds (-0x1) 1 0#32)))) = true := by decide

/-- by hand: `lb $t0, 0($sp)`, the word by R62, the result by R181. -/
theorem test_lbIndirect_2 : next ((start 0x00000000001D462E#64) |>.setReg 29 0x0010000C#32 |> poke 0x10000C [0xEB#8])
    (fun s => some (s |>.setReg 8 0xFFFFFFEB#32 |>.setPc 1#32)) = true := by decide

/-- L2.47 #2: `lbu $t0, 4`, zero-extended. -/
theorem test_lbuDirect_1 : next ((start 0x000000040000452F#64) |> poke 0x4 [0x9C#8])
    (fun s => some (s |>.setReg 8 0x0000009C#32 |>.setPc 1#32)) = true := by decide

/-- L2.47 #13: `lbu $t0, 4294967295`, direct address 0xFFFFFFFF is u(imm), not -1. -/
theorem test_lbuDirect_2 : faults ((start 0xFFFFFFFF0000452F#64))
    (fun s => some (.memoryBounds (0xFFFFFFFF) 1 0#32, s |>.setPc 1#32 |>.setStatus (.faulted (.memoryBounds (0xFFFFFFFF) 1 0#32)))) = true := by decide

/-- by hand: `lbu $t0, 0($sp)`, the word by R62, the result by R182. -/
theorem test_lbuIndirect_1 : next ((start 0x00000000001D462F#64) |>.setReg 29 0x0010000C#32 |> poke 0x10000C [0xEB#8])
    (fun s => some (s |>.setReg 8 0x000000EB#32 |>.setPc 1#32)) = true := by decide

/-- L2.47 #4: `lh $t0, 5`, odd address allowed; little-endian. -/
theorem test_lhDirect_1 : next ((start 0x0000000500004530#64) |> poke 0x5 [0x34#8, 0x82#8])
    (fun s => some (s |>.setReg 8 0xFFFF8234#32 |>.setPc 1#32)) = true := by decide

/-- by hand: `lh $t1, 2($sp)`, the word by R62, the result by R183. -/
theorem test_lhIndirect_1 : next ((start 0x00000002001D4E30#64) |>.setReg 29 0x00100008#32 |> poke 0x100008 [0xEF#8, 0xBE#8, 0xAD#8, 0xDE#8])
    (fun s => some (s |>.setReg 9 0xFFFFDEAD#32 |>.setPc 1#32)) = true := by decide

/-- L2.47 #5: `lhu $t0, 5`. -/
theorem test_lhuDirect_1 : next ((start 0x0000000500004531#64) |> poke 0x5 [0x34#8, 0x82#8])
    (fun s => some (s |>.setReg 8 0x00008234#32 |>.setPc 1#32)) = true := by decide

/-- by hand: `lhu $t2, 0($sp)`, the word by R62, the result by R184. -/
theorem test_lhuIndirect_1 : next ((start 0x00000000001D5631#64) |>.setReg 29 0x00100008#32 |> poke 0x100008 [0xEF#8, 0xBE#8, 0xAD#8, 0xDE#8])
    (fun s => some (s |>.setReg 10 0x0000BEEF#32 |>.setPc 1#32)) = true := by decide

/-- L2.47 #6: `lw $t0, 1`, unaligned word. -/
theorem test_lwDirect_1 : next ((start 0x0000000100004532#64) |> poke 0x1 [0x78#8, 0x56#8, 0x34#8, 0x12#8])
    (fun s => some (s |>.setReg 8 0x12345678#32 |>.setPc 1#32)) = true := by decide

/-- L2.47 #9: `lw $t0, 1048589`, end one past the last byte. -/
theorem test_lwDirect_2 : faults ((start 0x0010000D00004532#64))
    (fun s => some (.memoryBounds (0x10000D) 4 0#32, s |>.setPc 1#32 |>.setStatus (.faulted (.memoryBounds (0x10000D) 4 0#32)))) = true := by decide

/-- L2.47 #7: `lw $t0, -2($t0)`, rt = base: the loaded value replaces the base. -/
theorem test_lwIndirect_1 : next ((start 0xFFFFFFFE00084632#64) |>.setReg 8 0x00000003#32 |> poke 0x1 [0x78#8, 0x56#8, 0x34#8, 0x12#8])
    (fun s => some (s |>.setReg 8 0x12345678#32 |>.setPc 1#32)) = true := by decide

/-- L2.47 #8: `lw $t0, 0($sp)`, $sp = MEMSIZE after load: out of bounds. -/
theorem test_lwIndirect_2 : faults ((start 0x00000000001D4632#64))
    (fun s => some (.memoryBounds (0x100010) 4 0#32, s |>.setPc 1#32 |>.setStatus (.faulted (.memoryBounds (0x100010) 4 0#32)))) = true := by decide

/-- L2.47 #14: `sb $t0, 9`, low byte only. -/
theorem test_sbDirect_1 : next ((start 0x0000000900004533#64) |>.setReg 8 0x12345678#32)
    (fun s => some (s |> poke 0x9 [0x78#8] |>.setPc 1#32)) = true := by decide

/-- by hand: `sb $t0, 7($sp)`, the word by R62, the result by R186. -/
theorem test_sbIndirect_1 : next ((start 0x00000007001D4633#64) |>.setReg 29 0x00100008#32 |>.setReg 8 0xDEADBEEF#32)
    (fun s => some (s |> poke 0x10000F [0xEF#8] |>.setPc 1#32)) = true := by decide

/-- L2.47 #15: `sh $t0, 9`. -/
theorem test_shDirect_1 : next ((start 0x0000000900004534#64) |>.setReg 8 0x12345678#32)
    (fun s => some (s |> poke 0x9 [0x78#8, 0x56#8] |>.setPc 1#32)) = true := by decide

/-- L2.47 #19: `sh $t0, 1048591`, straddles the end: faults, no byte written. -/
theorem test_shDirect_2 : faults ((start 0x0010000F00004534#64) |>.setReg 8 0x0000FFFF#32)
    (fun s => some (.memoryBounds (0x10000F) 2 0#32, s |>.setPc 1#32 |>.setStatus (.faulted (.memoryBounds (0x10000F) 2 0#32)))) = true := by decide

/-- by hand: `sh $t0, -2($sp)`, the word by R62, the result by R187. -/
theorem test_shIndirect_1 : next ((start 0xFFFFFFFE001D4634#64) |>.setReg 8 0xDEADBEEF#32)
    (fun s => some (s |> poke 0x10000E [0xEF#8, 0xBE#8] |>.setPc 1#32)) = true := by decide

/-- L2.47 #16: `sw $t0, 9`, unaligned store. -/
theorem test_swDirect_1 : next ((start 0x0000000900004535#64) |>.setReg 8 0x12345678#32)
    (fun s => some (s |> poke 0x9 [0x78#8, 0x56#8, 0x34#8, 0x12#8] |>.setPc 1#32)) = true := by decide

/-- L2.47 #17: `sw $t0, -4($sp)`, last four bytes of memory. -/
theorem test_swIndirect_1 : next ((start 0xFFFFFFFC001D4635#64) |>.setReg 8 0xCAFEF00D#32)
    (fun s => some (s |> poke 0x10000C [0x0D#8, 0xF0#8, 0xFE#8, 0xCA#8] |>.setPc 1#32)) = true := by decide

/-- L2.47 #18: `sw $t0, 0($sp)`, store through `$sp` before it is moved down faults (C3). -/
theorem test_swIndirect_2 : faults ((start 0x00000000001D4635#64) |>.setReg 8 0x00000001#32)
    (fun s => some (.memoryBounds (0x100010) 4 0#32, s |>.setPc 1#32 |>.setStatus (.faulted (.memoryBounds (0x100010) 4 0#32)))) = true := by decide

/-- L2.48 #1: `mfhi $t0`. -/
theorem test_mfhi_1 : next ((start 0x0000000000004136#64) |>.setHi 0xFFFFFFFF#32 |>.setLo 0x00000000#32)
    (fun s => some (s |>.setReg 8 0xFFFFFFFF#32 |>.setPc 1#32)) = true := by decide

/-- L2.48 #2: `mflo $t0`. -/
theorem test_mflo_1 : next ((start 0x0000000000004137#64) |>.setHi 0x00000000#32 |>.setLo 0x00000003#32)
    (fun s => some (s |>.setReg 8 0x00000003#32 |>.setPc 1#32)) = true := by decide

/-- L2.48 #3: `mthi $t1`, LO unchanged. -/
theorem test_mthi_1 : next ((start 0x0000000000004938#64) |>.setReg 9 0x00000005#32 |>.setHi 0x00000000#32 |>.setLo 0x00000007#32)
    (fun s => some (s |>.setHi 0x00000005#32 |>.setPc 1#32)) = true := by decide

/-- L2.48 #4: `mtlo $t1`, HI unchanged. -/
theorem test_mtlo_1 : next ((start 0x0000000000004939#64) |>.setReg 9 0xFFFFFFFF#32 |>.setHi 0x00000009#32 |>.setLo 0x00000000#32)
    (fun s => some (s |>.setLo 0xFFFFFFFF#32 |>.setPc 1#32)) = true := by decide

/-- L2.48 #5: `move $t0, $t1`. -/
theorem test_move_1 : next ((start 0x000000000009423A#64) |>.setReg 9 0xCAFEF00D#32)
    (fun s => some (s |>.setReg 8 0xCAFEF00D#32 |>.setPc 1#32)) = true := by decide

/-- L2.48 #6: `move $zero, $t1`, register 0 keeps 7. -/
theorem test_move_2 : next ((start 0x000000000009023A#64) |>.setReg 0 0x00000000#32 |>.setReg 9 0x00000007#32)
    (fun s => some (s |>.setReg 0 0x00000007#32 |>.setPc 1#32)) = true := by decide

/-- L2.49 #1: `nop`. -/
theorem test_nop_1 : next ((start 0x000000000000003B#64))
    (fun s => some (s |>.setPc 1#32)) = true := by decide

/-- L2.49 #4, #5, #8, #14, #19, #21, #23: one vector for each service. -/
theorem test_syscall_services :
    next ((start 0x000000000000003C#64) |>.setReg 2 0x00000001#32 |>.setReg 4 0x80000000#32)
      (fun s => some (s |>.conWrite [0x2D#8, 0x32#8, 0x31#8, 0x34#8, 0x37#8, 0x34#8, 0x38#8, 0x33#8, 0x36#8, 0x34#8, 0x38#8] |>.setPc 1#32)) = true ∧
    next ((start 0x000000000000003C#64) |>.setReg 2 0x00000004#32 |>.setReg 4 0x00000000#32 |> poke 0x0 [0x48#8, 0x69#8, 0x0A#8, 0x00#8])
      (fun s => some (s |>.conWrite [0x48#8, 0x69#8, 0x0A#8] |>.setPc 1#32)) = true ∧
    next ((start 0x000000000000003C#64) |>.setReg 2 0x00000005#32 |>.setInput [0x20#8, 0x20#8, 0x2D#8, 0x34#8, 0x32#8, 0x0A#8, 0x37#8, 0x0A#8])
      (fun s => some (s |>.setReg 2 0xFFFFFFD6#32 |>.setInput [0x37#8, 0x0A#8] |>.setPc 1#32)) = true ∧
    next ((start 0x000000000000003C#64) |>.setReg 2 0x00000008#32 |>.setReg 4 0x00000000#32 |>.setReg 5 0x0000000A#32 |>.setInput [0x68#8, 0x65#8, 0x6C#8, 0x6C#8, 0x6F#8, 0x0A#8, 0x77#8, 0x6F#8, 0x72#8, 0x6C#8, 0x64#8, 0x0A#8])
      (fun s => some (s |>.setReg 2 0x00000006#32 |> poke 0x0 [0x68#8, 0x65#8, 0x6C#8, 0x6C#8, 0x6F#8, 0x0A#8] |>.setInput [0x77#8, 0x6F#8, 0x72#8, 0x6C#8, 0x64#8, 0x0A#8] |>.setPc 1#32)) = true ∧
    next ((start 0x000000000000003C#64) |>.setReg 2 0x0000000A#32 |>.setReg 4 0x00000005#32)
      (fun s => some (s |>.exit 0x00000005#32 |>.setPc 1#32)) = true ∧
    next ((start 0x000000000000003C#64) |>.setReg 2 0x0000000B#32 |>.setReg 4 0x00000141#32)
      (fun s => some (s |>.conWrite [0x41#8] |>.setPc 1#32)) = true ∧
    next ((start 0x000000000000003C#64) |>.setReg 2 0x0000000C#32 |>.setInput [0x78#8, 0x79#8])
      (fun s => some (s |>.setReg 2 0x00000078#32 |>.setInput [0x79#8] |>.setPc 1#32)) = true := by decide

/-- L2.49 #7, #12, #13, #18, #25, #28: each fault of syscall. -/
theorem test_syscall_faults :
    faults ((start 0x000000000000003C#64) |>.setReg 2 0x00000004#32 |>.setReg 4 0x0010000E#32 |> poke 0x10000E [0x41#8, 0x42#8])
      (fun s => some (.memoryBounds (0x100010) 1 0#32, s |>.setPc 1#32 |>.setStatus (.faulted (.memoryBounds (0x100010) 1 0#32)))) = true ∧
    faults ((start 0x000000000000003C#64) |>.setReg 2 0x00000005#32 |>.setInput [0x0A#8, 0x35#8, 0x0A#8])
      (fun s => some (.badInput 5 0#32, s |>.setInput [0x35#8, 0x0A#8] |>.setPc 1#32 |>.setStatus (.faulted (.badInput 5 0#32)))) = true ∧
    faults ((start 0x000000000000003C#64) |>.setReg 2 0x00000005#32 |>.setInput [])
      (fun s => some (.endOfInput 5 0#32, s |>.setPc 1#32 |>.setStatus (.faulted (.endOfInput 5 0#32)))) = true ∧
    faults ((start 0x000000000000003C#64) |>.setReg 2 0x00000008#32 |>.setReg 4 0x0010000E#32 |>.setReg 5 0x00000008#32 |>.setInput [0x61#8, 0x62#8, 0x63#8, 0x64#8])
      (fun s => some (.memoryBounds (0x10000E) 4 0#32, s |>.setInput [] |>.setPc 1#32 |>.setStatus (.faulted (.memoryBounds (0x10000E) 4 0#32)))) = true ∧
    faults ((start 0x000000000000003C#64) |>.setReg 2 0x0000000C#32 |>.setInput [])
      (fun s => some (.endOfInput 12 0#32, s |>.setPc 1#32 |>.setStatus (.faulted (.endOfInput 12 0#32)))) = true ∧
    faults ((start 0x000000000000003C#64) |>.setReg 2 0xFFFFFFFF#32)
      (fun s => some (.noSuchService 4294967295 0#32, s |>.setPc 1#32 |>.setStatus (.faulted (.noSuchService 4294967295 0#32)))) = true := by decide

/-! ## Witnesses: states and operands that meet the hypotheses of the obligations, each clause -/

/-- A Running state at index 0 of a program of one `nop`. -/
def sample : State := start 0x3B#64

/-- The sample with `x[8] = a` and `x[9] = b`. -/
def two (a b : Word) : State := (sample.setReg 8 a).setReg 9 b

/-- The sample with the service number `v` in `x[2]`. -/
def call (v : Word) : State := sample.setReg 2 v

theorem witness_DivisionWritesHiAndLoOrFaults :
    sval ((two 7#32 0x80000000#32).reg 9) ≠ 0 ∧ sval ((two 7#32 0#32).reg 9) = 0 ∧
    uval ((two 7#32 0xFFFFFFFF#32).reg 9) ≠ 0 ∧ uval ((two 7#32 0#32).reg 9) = 0 := by decide

theorem witness_RemainderOfBothForms :
    sval ((two 7#32 0xFFFFFFFF#32).reg 9) ≠ 0 ∧ sval ((two 7#32 0#32).reg 9) = 0 ∧
    sval (0x80000000#32) ≠ 0 ∧ sval (0#32) = 0 := by decide

theorem witness_LeftShiftsOfAllForms :
    (31#32).toNat ≤ 31 ∧ 32 ≤ (32#32).toNat ∧ ((two 1#32 31#32).reg 9).toNat ≤ 31 ∧
    32 ≤ ((two 1#32 32#32).reg 9).toNat := by decide

theorem witness_LogicalRightShiftsOfAllForms :
    (0#32).toNat ≤ 31 ∧ 32 ≤ (0xFFFFFFFF#32).toNat ∧ ((two 1#32 0#32).reg 9).toNat ≤ 31 ∧
    32 ≤ ((two 1#32 0xFFFFFFFF#32).reg 9).toNat := by decide

theorem witness_ArithmeticRightShiftsFillWithTheSign :
    (31#32).toNat ≤ 31 ∧ 32 ≤ (32#32).toNat ∧ ((two 0x80000000#32 31#32).reg 9).toNat ≤ 31 ∧
    32 ≤ ((two 0x80000000#32 32#32).reg 9).toNat := by decide

theorem witness_MaskMethodGivesTheArithmeticShift : 31 ≤ 31 ∧ sval 0x80000000#32 < 0 := by decide

theorem witness_TwoRegisterBranchesSetPcOrKeepIt :
    (two 9#32 9#32).reg 8 = (two 9#32 9#32).reg 9 ∧ (two 9#32 8#32).reg 8 ≠ (two 9#32 8#32).reg 9 ∧
    sval ((two 0xFFFFFFFF#32 0#32).reg 8) < sval ((two 0xFFFFFFFF#32 0#32).reg 9) ∧
    ¬sval ((two 3#32 3#32).reg 8) < sval ((two 3#32 3#32).reg 9) ∧
    sval ((two 0#32 0xFFFFFFFF#32).reg 8) > sval ((two 0#32 0xFFFFFFFF#32).reg 9) ∧
    ¬sval ((two 3#32 3#32).reg 8) > sval ((two 3#32 3#32).reg 9) := by decide

theorem witness_ZeroBranchesSetPcOrKeepIt :
    sval ((two 0#32 0#32).reg 8) ≥ 0 ∧ ¬sval ((two 0xFFFFFFFF#32 0#32).reg 8) ≥ 0 ∧
    sval ((two 1#32 0#32).reg 8) > 0 ∧ ¬sval ((two 0#32 0#32).reg 8) > 0 ∧
    sval ((two 0#32 0#32).reg 8) ≤ 0 ∧ ¬sval ((two 1#32 0#32).reg 8) ≤ 0 := by decide

/-- FetchChecked's hypotheses, after a jump to N. -/
theorem witness_JumpsSetPcAndLink :
    (sample.setPc 1#32).status = .running ∧ (sample.setPc 1#32).prog.length ≤ (sample.setPc 1#32).pc.toNat := by decide

theorem witness_HalfLoadsKeepTheOtherHalf :
    (-2 ^ 15 ≤ (0xFFFF8000#32).toInt ∧ (0xFFFF8000#32).toInt ≤ 2 ^ 16 - 1) ∧
    (-2 ^ 15 ≤ (0xFFFF#32).toInt ∧ (0xFFFF#32).toInt ≤ 2 ^ 16 - 1) ∧
    (0xFFFF7FFF#32).toInt < -2 ^ 15 ∧ 2 ^ 16 - 1 < (0x10000#32).toInt := by decide

/-- The first and the last word in bounds, the last byte, one past the end, and a negative address. -/
theorem witness_LoadsReadLittleEndianOrFault :
    (0 ≤ uval 0#32 ∧ uval 0#32 + (4 : Int) ≤ (sample.memSize : Int)) ∧
    (0 ≤ uval 0x10000C#32 ∧ uval 0x10000C#32 + (4 : Int) ≤ (sample.memSize : Int)) ∧
    (0 ≤ uval (sample.reg 29) + sval 0xFFFFFFFF#32 ∧
      uval (sample.reg 29) + sval 0xFFFFFFFF#32 + (1 : Int) ≤ (sample.memSize : Int)) ∧
    (sample.memSize : Int) < uval 0x10000F#32 + (2 : Int) ∧
    uval ((two 0#32 0#32).reg 9) + sval 0xFFFFFFFF#32 < 0 := by decide

theorem witness_StoresWriteLittleEndianOrFault :
    Memory.wf sample.mem = true ∧
    (0 ≤ uval (sample.reg 29) + sval 0xFFFFFFFC#32 ∧
      uval (sample.reg 29) + sval 0xFFFFFFFC#32 + (4 : Int) ≤ (sample.memSize : Int)) ∧
    (sample.memSize : Int) < uval (sample.reg 29) + sval 0xFFFFFFFD#32 + (4 : Int) ∧
    (0 ≤ uval 0x10000E#32 ∧ uval 0x10000E#32 + (2 : Int) ≤ (sample.memSize : Int)) ∧
    (sample.memSize : Int) < uval 0x100010#32 + (1 : Int) := by decide

theorem witness_NopOnlyAdvancesPc :
    sample.status = .running ∧ sample.prog[sample.pc.toNat]? = some (recordWord 59 0 0 0 0 0) := by decide

theorem witness_DivisionIdentity : (two 0x80000000#32 0xFFFFFFFF#32).reg 9 ≠ 0#32 := by decide

/-- The sample's program is legal. -/
theorem nop_legal : ∀ w ∈ [(0x3B#64 : Record)], legalRecord w = true := by
  intro w hw
  rw [List.mem_singleton.1 hw]
  rfl

/-- The sample meets the invariant. -/
theorem witness_inv : sample.Inv := by
  refine ⟨by decide, by decide, by decide, ?_, ?_, nop_legal⟩
  · show 0x100010 ≤ 2147483648; omega
  · show 1 ≤ 2147483647; omega

/-- The last word of memory. -/
theorem witness_StoredWordIsLoadedBack :
    sample.Inv ∧ uval 0x10000C#32 + 4 ≤ (sample.memSize : Int) := ⟨witness_inv, by decide⟩

theorem witness_services :
    (call 1#32).reg 2 = 1#32 ∧ (call 4#32).reg 2 = 4#32 ∧ (call 5#32).reg 2 = 5#32 ∧ (call 8#32).reg 2 = 8#32 ∧
    (call 10#32).reg 2 = 10#32 ∧ (call 11#32).reg 2 = 11#32 ∧ (call 12#32).reg 2 = 12#32 := by decide

/-- Service 4 at `x[4] = a`, with the bytes 41 42 at the end of memory. -/
def printAt (a : Word) : State := poke 0x10000E [0x41#8, 0x42#8] ((call 4#32).setReg 4 a)

/-- A string of length 0, a string that runs past the end, and an address at the end. -/
theorem witness_PrintStringReadsItWholeFirst :
    (printAt 0#32).reg 2 = 4#32 ∧
    (printAt 0#32).byteAt (((printAt 0#32).reg 4).toNat + 0) = 0#8 ∧
    ((printAt 0#32).reg 4).toNat + 0 < (printAt 0#32).memSize ∧
    (∀ k, k < 2 → (printAt 0x10000E#32).byteAt (((printAt 0x10000E#32).reg 4).toNat + k) ≠ 0#8) ∧
    ((printAt 0x10000E#32).reg 4).toNat + 2 ≤ (printAt 0x10000E#32).memSize ∧
    (printAt 0x10000E#32).memSize ≤ ((printAt 0x10000E#32).reg 4).toNat + 2 ∧
    (printAt 0x100010#32).memSize ≤ ((printAt 0x100010#32).reg 4).toNat + 0 := by decide

/-- A string of one byte whose zero byte is the last byte of memory. -/
theorem witness_PrintStringReadsItWholeFirst_last :
    (∀ k, k < 1 → (poke 0x10000E [0x41#8] sample).byteAt (0x10000E + k) ≠ 0#8) ∧
    (poke 0x10000E [0x41#8] sample).byteAt (0x10000E + 1) = 0#8 ∧ 0x10000E + 1 < sample.memSize := by decide

/-- Service 5 with the given input. -/
def readInt (input : List Byte) : State := (call 5#32).setInput input

/-- ` -7` and a newline: one line, an integer between whitespace. -/
theorem witness_ReadIntegerConsumesOneLine :
    (readInt []).consoleIn = [] ∧
    IsFirstLine (readInt [0x20#8, 0x2D#8, 0x37#8, 0x0A#8]).consoleIn [0x20#8, 0x2D#8, 0x37#8, 0x0A#8] [] ∧
    LineReadsAs [0x20#8, 0x2D#8, 0x37#8, 0x0A#8] (-7) := by
  refine ⟨rfl, ⟨rfl, by decide, .inl ⟨[0x20#8, 0x2D#8, 0x37#8], rfl, by decide⟩⟩, ?_⟩
  exact ⟨[0x20#8], [0x2D#8, 0x37#8], [0x0A#8], rfl, by decide, by decide,
    ⟨[0x2D#8], [7], by decide, by decide, rfl, .inr ⟨rfl, rfl⟩⟩, by decide, by decide⟩

/-- The empty line is no integer. -/
theorem witness_ReadIntegerConsumesOneLine_bad :
    IsFirstLine (readInt [0x0A#8, 0x35#8]).consoleIn [0x0A#8] [0x35#8] ∧ ∀ n, ¬LineReadsAs [0x0A#8] n := by
  refine ⟨⟨rfl, by decide, .inl ⟨[], rfl, by decide⟩⟩, ?_⟩
  rintro n ⟨before, text, after, h, -, -, ⟨sign, ds, hd, hne, ht, -⟩, -, -⟩
  obtain ⟨d, l, rfl⟩ := List.exists_cons_of_ne_nil hne
  have hd' : d < 10 := hd d (by simp)
  have hm : BitVec.ofNat 8 (48 + d) ∈ [0x0A#8] := by rw [h, ht]; simp
  have he := congrArg BitVec.toNat (List.mem_singleton.1 hm)
  simp only [BitVec.toNat_ofNat] at he
  omega

/-- Service 8 with buffer `a`, count `n` and the given input. -/
def readBuf (a n : Word) (input : List Byte) : State := (((call 8#32).setReg 4 a).setReg 5 n).setInput input

/-- Two bytes that fill the end of memory exactly. -/
theorem witness_ReadBytesFillsTheBuffer :
    (readBuf 0x10000E#32 2#32 [0x61#8, 0x62#8, 0x63#8]).reg 2 = 8#32 ∧
    Memory.wf (readBuf 0x10000E#32 2#32 [0x61#8, 0x62#8, 0x63#8]).mem = true ∧
    ¬sval ((readBuf 0x10000E#32 2#32 [0x61#8, 0x62#8, 0x63#8]).reg 5) ≤ 0 ∧
    IsReadUpTo (readBuf 0x10000E#32 2#32 [0x61#8, 0x62#8, 0x63#8]).consoleIn 2 [0x61#8, 0x62#8] [0x63#8] ∧
    0x10000E + [0x61#8, 0x62#8].length ≤ (readBuf 0x10000E#32 2#32 [0x61#8, 0x62#8, 0x63#8]).memSize := by
  refine ⟨by decide, by decide, by decide, ⟨rfl, by decide, ?_, .inl rfl⟩, by decide⟩
  intro k hk
  have : k = 0 := by simp only [List.length_cons, List.length_nil] at hk; omega
  subst this
  decide

/-- Two bytes that do not fit, and a count of 0. -/
theorem witness_ReadBytesFillsTheBuffer_other :
    (readBuf 0x10000F#32 2#32 [0x61#8, 0x0A#8]).memSize < 0x10000F + [0x61#8, 0x0A#8].length ∧
    IsReadUpTo (readBuf 0x10000F#32 2#32 [0x61#8, 0x0A#8]).consoleIn 2 [0x61#8, 0x0A#8] [] ∧
    sval ((readBuf 0#32 0#32 [0x61#8]).reg 5) ≤ 0 := by
  refine ⟨by decide, ⟨rfl, by decide, ?_, .inl rfl⟩, by decide⟩
  intro k hk
  have : k = 0 := by simp only [List.length_cons, List.length_nil] at hk; omega
  subst this
  decide

theorem witness_ReadCharacterConsumesOneByte :
    ((call 12#32).setInput [0x78#8, 0x79#8]).consoleIn = 0x78#8 :: [0x79#8] ∧ (call 12#32).consoleIn = [] := by decide

theorem witness_UnknownServiceFaults :
    ((call 0#32).reg 2).toNat ∉ [1, 4, 5, 8, 10, 11, 12] ∧
    ((call 13#32).reg 2).toNat ∉ [1, 4, 5, 8, 10, 11, 12] := by decide

theorem witness_EndOfInputFaultsOnlyBlockingReads :
    (call 5#32).consoleIn = [] ∧ (call 8#32).consoleIn = [] ∧ (call 12#32).consoleIn = [] ∧
    (call 5#32).reg 2 = 5#32 ∧ (call 8#32).reg 2 = 8#32 ∧ (call 12#32).reg 2 = 12#32 := by decide

/-- Service 1 prints `-7`; an input that begins with that line. -/
theorem witness_PrintedIntegerIsReadBack :
    ((call 1#32).setReg 4 0xFFFFFFF9#32).reg 2 = 1#32 ∧ (call 5#32).reg 2 = 5#32 ∧
    (nextOf (exec .syscall ((call 1#32).setReg 4 0xFFFFFFF9#32))).map State.consoleOut = some [0x2D#8, 0x37#8] ∧
    (readInt [0x2D#8, 0x37#8, 0x0A#8, 0x31#8]).consoleIn = [0x2D#8, 0x37#8] ++ 0x0A#8 :: [0x31#8] := by decide

/-- The extreme literals of the checked forms. -/
theorem witness_DecodeOfEncodeIsTheInstruction :
    (Instr.sra 31 0 31#32).wf = true ∧ (Instr.lhi 31 0xFFFF#32).wf = true ∧ (Instr.llo 0 0xFFFF8000#32).wf = true ∧
    (Instr.swIndirect 31 29 0xFFFFFFFF#32).wf = true := by decide

theorem witness_EncodeOfDecodeIsTheWord : decode 0xFFFFFFFC001D4632#64 = .ok (.lwIndirect 8 29 0xFFFFFFFC#32) := by decide

theorem witness_LegalRecordsAreThoseOfTheSpec :
    ∃ w ∈ (Image.mk [0x3B#64, 0#64] []).records, ¬LegalWord w :=
  ⟨0#64, by decide, fun h => absurd h.1.1 (by decide)⟩

theorem witness_StepRunsTheDecodedInstruction :
    sample.status = .running ∧ sample.prog[sample.pc.toNat]? = some 0x3B#64 ∧ decode 0x3B#64 = .ok .nop ∧
    (sample.setPc 1#32).prog.length ≤ (sample.setPc 1#32).pc.toNat ∧ (sample.exit 5#32).status ≠ .running := by decide

theorem witness_PlacedRecordIsRunNext : decodeTableWord 64 0x0000000000094210 = some (.mult 8 9) := by decide

/-- A division by zero; reading the register as the divisor. -/
def divZero : State := (start 0x000000000009420E#64).setReg 9 0#32

theorem witness_FaultingStepWritesNothing :
    step divZero = .fault (.raised (.divideByZero 0#32) ((divZero.setPc 1#32).setStatus (.faulted (.divideByZero 0#32)))) := rfl

/-- BadOffset, which keeps pc; a line that is no integer, and bytes that do not fit, which are consumed. -/
theorem witness_FaultingStepWritesNothing_other :
    (faultOf (step (sample.setPc 1#32))).map (fun r => (r.1, r.2.pc)) = some (.badOffset 1#32, 1#32) ∧
    (faultOf (step { readInt [0x78#8, 0x0A#8, 0x35#8] with prog := [0x3C#64] })).map
      (fun r => (r.1, r.2.pc, r.2.consoleIn)) = some (.badInput 5 0#32, 1#32, [0x35#8]) ∧
    (faultOf (step { readBuf 0x10000F#32 2#32 [0x61#8, 0x62#8, 0x63#8] with prog := [0x3C#64] })).map
      (fun r => (r.1, r.2.pc, r.2.consoleIn)) = some (.memoryBounds 0x10000F 2 0#32, 1#32, [0x63#8]) := by decide

/-- Both cases of R221: the fetch, and an instruction. -/
theorem witness_FaultsComeFromTheirInstructions :
    (faultOf (step (sample.setPc 1#32))).map Prod.fst = some (.badOffset 1#32) ∧
    (faultOf (step divZero)).map Prod.fst = some (.divideByZero 0#32) := by decide

/-- A step that goes on. -/
theorem witness_step_next : step sample = .next (sample.setPc 1#32) := rfl

/-- HI and LO change; an instruction that reads neither; one that faults. -/
theorem witness_HiAndLoHaveOnlyTheirOwnInstructions :
    (nextOf (exec (.mthi 8) (two 1#32 2#32))).map State.hi ≠ some (two 1#32 2#32).hi ∧
    (nextOf (exec (.mtlo 8) (two 1#32 2#32))).map State.lo ≠ some (two 1#32 2#32).lo ∧
    (∀ rd, Instr.div 8 9 ≠ .mfhi rd ∧ Instr.div 8 9 ≠ .mflo rd) ∧
    (nextOf (exec (.div 8 9) (two 1#32 2#32))).isSome = true ∧
    (faultOf (exec (.div 8 9) (two 1#32 0#32))).isSome = true := by
  refine ⟨by decide, by decide, fun rd => ⟨Instr.noConfusion, Instr.noConfusion⟩, by decide, by decide⟩

/-- The clauses: a store and an address outside it, an instruction that stores nothing, syscall with and
without service 8. -/
theorem witness_MemoryChangesOnlyWhereStored :
    (nextOf (exec (.swDirect 8 4#32) sample)).isSome = true ∧ Memory.wf sample.mem = true ∧
    storeTarget (.swDirect 8 4#32) sample = some (4, 4) ∧ ((3 : Nat) : Int) < 4 ∧ (4 : Int) + 4 ≤ ((8 : Nat) : Int) ∧
    (nextOf (exec .nop sample)).isSome = true ∧ storeTarget .nop sample = none ∧ Instr.nop ≠ .syscall ∧
    (nextOf (exec .syscall (call 11#32))).isSome = true ∧ (call 11#32).reg 2 ≠ 8#32 ∧
    (nextOf (exec .syscall (readBuf 0#32 1#32 [0x61#8]))).isSome = true ∧
    (readBuf 0#32 1#32 [0x61#8]).reg 2 = 8#32 := by decide

theorem witness_OnlyTransfersChangePc :
    (nextOf (exec (.add 8 9 10) sample)).isSome = true ∧ isTransfer (.add 8 9 10) = false := by decide

theorem witness_ConsoleIsUsedOnlyBySyscall :
    (nextOf (exec .nop sample)).isSome = true ∧ Instr.nop ≠ .syscall ∧ (nextOf (step sample)).isSome = true := by decide

/-- A step that runs `syscall` with service number 10. -/
theorem witness_ExitEndsTheRun :
    ((nextOf (step ((start 0x3C#64).setReg 2 10#32))).map State.status).isSome = true ∧
    (nextOf (step ((start 0x3C#64).setReg 2 10#32))).map State.status ≠ some .running := by decide

theorem witness_RunningEngineIsNeverRefused : sample.Inv ∧ sample.status = .running := ⟨witness_inv, rfl⟩

/-- Each reason to refuse an image. -/
theorem witness_LoadGivesTheStateAfterReset_refused :
    (List.replicate (2 ^ 31) (0x3B#64 : Record)).length > 2 ^ 31 - 1 ∧
    (List.replicate (2 ^ 31) (0#8 : Byte)).length + 1048576 > 2 ^ 31 ∧
    legalRecord 0#64 = false := by
  rw [List.length_replicate, List.length_replicate]
  exact ⟨by omega, by omega, by decide⟩

/-- The largest data buffer, with a legal program. -/
theorem witness_LoadGivesTheStateAfterReset :
    [0x3B#64].length ≤ 2 ^ 31 - 1 ∧ (List.replicate (2 ^ 31 - 1048576) (0#8 : Byte)).length + 1048576 ≤ 2 ^ 31 ∧
    ∀ w ∈ [0x3B#64], legalRecord w = true := by
  rw [List.length_replicate]
  refine ⟨?_, by omega, nop_legal⟩
  show 1 ≤ 2 ^ 31 - 1
  omega

theorem witness_LoadMeetsTheInvariant :
    load Config.zeroRegs ⟨[0x3B#64], [1#8, 0#8]⟩ [] = .next (loadedState Config.zeroRegs ⟨[0x3B#64], [1#8, 0#8]⟩ []) := rfl

theorem witness_StepKeepsTheInvariant : sample.Inv ∧ step sample = .next (sample.setPc 1#32) := ⟨witness_inv, rfl⟩

/-- Two ways to the same memory. -/
theorem witness_CanonicalMemoriesThatReadAlikeAreEqual :
    Memory.wf (Memory.write (Memory.write [] 4 7#8) 2 5#8) = true ∧ Memory.wf [(2, 5#8), (4, 7#8)] = true ∧
    ∀ a, Memory.read (Memory.write (Memory.write [] 4 7#8) 2 5#8) a = Memory.read [(2, 5#8), (4, 7#8)] a :=
  ⟨by decide, by decide, fun _ => rfl⟩

end Sys2Proof.Tests
end

section
/-! PROOFS. The invariant of a loaded engine (R7, R29, R30, R72): what a next state can have done to the program, MEMSIZE and memory is read off `Effect` once, and every step keeps `State.Inv`. -/

namespace Sys2Proof.Machine

/-- No effect changes the program or MEMSIZE (R29, R30). -/
theorem Effect.keepsImage {s t : State} (he : Effect s (.next t)) : KeepsImage s t := by
  generalize hr : Host.Outcome.next t = r at he
  cases he with
  | fault f => exact absurd hr.symm (raise_ne_next f s t)
  | faultAfterRead f _ rest _ => exact absurd hr.symm (raise_ne_next f (s.setInput rest) t)
  | _ => cases hr; exact ⟨rfl, rfl⟩

/-- The only change an effect makes to memory is one write of bytes in bounds (R44, R46). -/
theorem Effect.mem_cases {s t : State} (he : Effect s (.next t)) :
    t.mem = s.mem ∨
      ∃ a bs, s.inBounds a bs.length = true ∧ t.mem = Memory.writeBytes s.mem a.toNat bs := by
  generalize hr : Host.Outcome.next t = r at he
  cases he with
  | store a bs hb => cases hr; exact .inr ⟨a, bs, hb, rfl⟩
  | readBytes got _ a _ _ hb => cases hr; exact .inr ⟨a, got, hb, rfl⟩
  | fault f => exact absurd hr.symm (raise_ne_next f s t)
  | faultAfterRead f _ rest _ => exact absurd hr.symm (raise_ne_next f (s.setInput rest) t)
  | _ => cases hr; exact .inl rfl

/-- With the program and MEMSIZE kept, the invariant is only a matter of the new memory. -/
theorem State.Inv.of_keepsImage {s t : State} (hs : s.Inv) (hi : KeepsImage s t)
    (hwf : Memory.wf t.mem = true) (hbelow : Memory.below t.mem s.memSize = true) : t.Inv := by
  obtain ⟨_, _, hstack, hsize, hlen, hlegal⟩ := hs
  obtain ⟨hprog, hmemSize⟩ := hi
  rw [← hmemSize] at hbelow hstack hsize
  rw [← hprog] at hlen hlegal
  exact ⟨hwf, hbelow, hstack, hsize, hlen, hlegal⟩

/-- A write of bytes in bounds lists no address at or above MEMSIZE. -/
theorem Memory.below_writeBytes_of_inBounds {s : State} {a : Int} {bs : List Byte}
    (hb : s.inBounds a bs.length = true) (hbelow : Memory.below s.mem s.memSize = true) :
    Memory.below (Memory.writeBytes s.mem a.toNat bs) s.memSize = true := by
  obtain ⟨h0, hend⟩ := State.inBounds_iff.1 hb
  exact Memory.below_writeBytes bs (by omega) hbelow

/-- Every effect that answers a next state keeps the invariant. -/
theorem Effect.keepsInv {s t : State} (he : Effect s (.next t)) (hs : s.Inv) : t.Inv := by
  obtain hm | ⟨a, bs, hb, hm⟩ := he.mem_cases
  · exact hs.of_keepsImage he.keepsImage (hm ▸ hs.memCanonical) (hm ▸ hs.memBelow)
  · exact hs.of_keepsImage he.keepsImage (hm ▸ Memory.wf_writeBytes a.toNat bs hs.memCanonical)
      (hm ▸ Memory.below_writeBytes_of_inBounds hb hs.memBelow)

/-- The advance of pc keeps the invariant. -/
theorem State.Inv.advance {s : State} (hs : s.Inv) : s.advance.Inv :=
  hs.of_keepsImage ⟨rfl, rfl⟩ hs.memCanonical hs.memBelow

/-- Settles O54: a step that goes on runs one instruction on the advanced state, and every effect of an
instruction keeps the invariant. -/
theorem stepKeepsTheInvariant : Obligations.StepKeepsTheInvariant := by
  intro s t hs hstep
  obtain ⟨_, i, _, _, _, hexec⟩ := step_eq_next hstep
  have he : Effect s.advance (.next t) := hexec ▸ exec_effect i s.advance
  exact he.keepsInv hs.advance

end Sys2Proof.Machine
end

section
/-! PROOFS. The state over every instruction and step (R22, R25, R26, R29, R30): the next states an instruction can answer are listed once, each with the instructions that answer it, and what each part of the state keeps is read off the list. -/

namespace Sys2Proof.Machine

/-! ## What an instruction that answers a next state did -/

/-- The next states instruction `i` can answer in state `s`. Where `Effect` lists the answers of all
instructions together, each constructor here says which instructions give it. -/
inductive Completion (i : Instr) (s : State) : State → Prop where
  | unchanged : Completion i s s
  | register (rd : Reg) (v : Word) : Completion i s (s.setReg rd v)
  | hiLo (rs rt : Reg) (h l : Word)
      (hop : i = .div rs rt ∨ i = .divu rs rt ∨ i = .mult rs rt ∨ i = .multu rs rt) :
      Completion i s ((s.setHi h).setLo l)
  | hi (rs : Reg) (v : Word) (hop : i = .mthi rs) : Completion i s (s.setHi v)
  | lo (rs : Reg) (v : Word) (hop : i = .mtlo rs) : Completion i s (s.setLo v)
  | jump (p : Word) (hop : isTransfer i = true) : Completion i s (s.setPc p)
  | link (p : Word) (hop : isTransfer i = true) : Completion i s ((s.setReg linkReg s.pc).setPc p)
  | store (a : Int) (bs : List Byte) (hop : storeTarget i s = some (a, bs.length))
      (hb : s.inBounds a bs.length = true) :
      Completion i s (s.setMem (Memory.writeBytes s.mem a.toNat bs))
  | print (bs : List Byte) (hop : i = .syscall) : Completion i s (s.conWrite bs)
  | exit (code : Word) (hop : i = .syscall) : Completion i s (s.exit code)
  | read (rest : List Byte) (v : Word) (hop : i = .syscall) :
      Completion i s ((s.setInput rest).setReg serviceReg v)
  | readBytes (got rest : List Byte) (hop : i = .syscall) (hv : s.reg serviceReg = 8#32)
      (hg : got.length < 2 ^ 32) :
      Completion i s (((s.setInput rest).setMem
        (Memory.writeBytes s.mem (s.reg argReg).toNat got)).setReg serviceReg (w32 got.length))

section
variable {i : Instr} {s t : State}

theorem Completion.ofWriteReg {rd : Reg} {v : Word} (h : writeReg rd v s = .next t) : Completion i s t :=
  writeReg_eq_next.1 h ▸ .register rd v

theorem Completion.ofDivide {a b : Int} {rs rt : Reg} (hop : i = .div rs rt ∨ i = .divu rs rt)
    (h : divideInto a b s = .next t) : Completion i s t := by
  unfold divideInto at h
  split at h
  · exact absurd h (raise_ne_next _ _ _)
  · cases h
    exact .hiLo rs rt _ _ (hop.elim .inl (.inr ∘ .inl))

theorem Completion.ofRemainder {rd : Reg} {a b : Int} (h : remainderInto rd a b s = .next t) :
    Completion i s t := by
  unfold remainderInto at h
  split at h
  · exact absurd h (raise_ne_next _ _ _)
  · exact .ofWriteReg h

theorem Completion.ofShift {kind : ShiftKind} {rd : Reg} {v : Word} {n : Nat}
    (h : shiftInto kind rd v n s = .next t) : Completion i s t := by
  unfold shiftInto at h
  split at h
  · exact .ofWriteReg h
  · split at h
    · exact .ofWriteReg h
    · exact absurd h (raise_ne_next _ _ _)

theorem Completion.ofBranch {c : Bool} {target : Word} (hop : isTransfer i = true)
    (h : branchIf c target s = .next t) : Completion i s t := by
  rw [branchIf_eq_next] at h
  cases h
  exact .jump _ hop

theorem Completion.ofLoad {rt : Reg} {a : Int} {n : Nat} {widen : Nat → Word}
    (h : loadInto rt a n widen s = .next t) : Completion i s t := by
  unfold loadInto at h
  split at h
  · exact .ofWriteReg h
  · exact absurd h (raise_ne_next _ _ _)

theorem Completion.ofStore {a : Int} {n : Nat} {v : Word} (hop : storeTarget i s = some (a, n))
    (h : storeAt a n v s = .next t) : Completion i s t := by
  unfold storeAt at h
  split at h
  · rename_i u hu
    cases h
    obtain ⟨hb, rfl⟩ := State.memWrite_eq_some.1 hu
    exact .store a (leBytes n v) (by rw [leBytes_length]; exact hop) hb
  · exact absurd h (raise_ne_next _ _ _)

/-! ### The services of syscall -/

theorem Completion.ofPrintString (h : servicePrintString s = .next t) : Completion .syscall s t := by
  unfold servicePrintString at h
  simp only at h
  split at h
  · cases h
    exact .print _ rfl
  · exact absurd h (raise_ne_next _ _ _)

theorem Completion.ofReadInteger (h : serviceReadInteger s = .next t) : Completion .syscall s t := by
  unfold serviceReadInteger at h
  split at h
  · exact absurd h (raise_ne_next _ _ _)
  · split at h
    · exact absurd h (raise_ne_next _ _ _)
    · cases h
      exact .read _ _ rfl

/-- Service 8 never reads `2^32` bytes or more: its bound is the signed value of a word. -/
theorem readAtMost_length_lt (input : List Byte) (v : Word) :
    (readAtMost input (sval v)).1.length < 2 ^ 32 := by
  have hv : sval v < 2 ^ 31 := v.toInt_lt
  unfold readAtMost
  split
  · exact Nat.two_pow_pos 32
  · have := conReadUpTo_length input (sval v).toNat
    omega

theorem Completion.ofReadBytes (hv : s.reg serviceReg = 8#32) (h : serviceReadBytes s = .next t) :
    Completion .syscall s t := by
  unfold serviceReadBytes at h
  simp only at h
  split at h
  · cases h
    exact .read _ _ rfl
  · split at h
    · rename_i u hu
      cases h
      obtain ⟨_, rfl⟩ := State.memWrite_eq_some.1 hu
      exact .readBytes _ _ rfl hv (readAtMost_length_lt _ _)
    · exact absurd h (raise_ne_next _ _ _)

theorem Completion.ofReadCharacter (h : serviceReadCharacter s = .next t) : Completion .syscall s t := by
  unfold serviceReadCharacter at h
  split at h
  · exact absurd h (raise_ne_next _ _ _)
  · cases h
    exact .read _ _ rfl

theorem Completion.ofSyscall (h : execSyscall s = .next t) : Completion .syscall s t := by
  unfold execSyscall at h
  simp only at h
  repeat' split at h
  · cases h
    exact .print _ rfl
  · exact .ofPrintString h
  · exact .ofReadInteger h
  · exact .ofReadBytes (BitVec.eq_of_toNat_eq ‹_›) h
  · cases h
    exact .exit _ rfl
  · cases h
    exact .print _ rfl
  · exact .ofReadCharacter h
  · exact absurd h (raise_ne_next _ _ _)

/-- Every next state of `exec` is one of the listed completions of its instruction. -/
theorem exec_completion (h : exec i s = .next t) : Completion i s t := by
  cases i with
  | add | addu | addi | addiu | and | andi | or | ori | xor | xori | nor | sub | subu | mul | mulu | sra
  | slt | sltu | slti | sltiu | laDirect | laIndirect | liDirect | liIndirect | lhi | llo | mfhi | mflo
  | move => exact .ofWriteReg h
  | div => exact .ofDivide (.inl rfl) h
  | divu => exact .ofDivide (.inr rfl) h
  | mult rs rt => cases h; exact .hiLo rs rt _ _ (.inr (.inr (.inl rfl)))
  | multu rs rt => cases h; exact .hiLo rs rt _ _ (.inr (.inr (.inr rfl)))
  | mthi rs => cases h; exact .hi rs _ rfl
  | mtlo rs => cases h; exact .lo rs _ rfl
  | remReg | remImm => exact .ofRemainder h
  | sllReg | sllImm | srlReg | srlImm | sllv | srlv | srav => exact .ofShift h
  | beq | bne | blt | bgt | bgez | bgtz | blez => exact .ofBranch rfl h
  | j | jr => cases h; exact .jump _ rfl
  | jal | jalr => cases h; exact .link _ rfl
  | lbDirect | lbIndirect | lbuDirect | lbuIndirect | lhDirect | lhIndirect | lhuDirect | lhuIndirect
  | lwDirect | lwIndirect => exact .ofLoad h
  | sbDirect | sbIndirect | shDirect | shIndirect | swDirect | swIndirect => exact .ofStore rfl h
  | nop => cases h; exact .unchanged
  | syscall => exact .ofSyscall h

/-! ## What each part of the state keeps -/

theorem Completion.pc_eq (hc : Completion i s t) (hop : isTransfer i = false) : t.pc = s.pc := by
  cases hc with
  | jump p h => exact nomatch hop.symm.trans h
  | link p h => exact nomatch hop.symm.trans h
  | _ => rfl

theorem Completion.hi_cases (hc : Completion i s t) :
    t.hi = s.hi ∨
      ∃ rs rt, i = .div rs rt ∨ i = .divu rs rt ∨ i = .mult rs rt ∨ i = .multu rs rt ∨ i = .mthi rs := by
  cases hc with
  | hiLo rs rt _ _ h => exact .inr ⟨rs, rt, by tauto⟩
  | hi rs _ h => exact .inr ⟨rs, rs, by tauto⟩
  | _ => exact .inl rfl

theorem Completion.lo_cases (hc : Completion i s t) :
    t.lo = s.lo ∨
      ∃ rs rt, i = .div rs rt ∨ i = .divu rs rt ∨ i = .mult rs rt ∨ i = .multu rs rt ∨ i = .mtlo rs := by
  cases hc with
  | hiLo rs rt _ _ h => exact .inr ⟨rs, rt, by tauto⟩
  | lo rs _ h => exact .inr ⟨rs, rs, by tauto⟩
  | _ => exact .inl rfl

/-- Memory is left alone, or the instruction is a store that wrote its target, or it is syscall and
service 8 wrote to `x[4]` the bytes it counts in `x[2]`. -/
theorem Completion.mem_cases (hc : Completion i s t) :
    t.mem = s.mem
    ∨ (∃ a bs, storeTarget i s = some (a, bs.length) ∧ s.inBounds a bs.length = true ∧
        t.mem = Memory.writeBytes s.mem a.toNat bs)
    ∨ (i = .syscall ∧ s.reg 2 = 8#32 ∧ ∃ got, (t.reg 2).toNat = got.length ∧
        t.mem = Memory.writeBytes s.mem (s.reg 4).toNat got) := by
  cases hc with
  | store a bs h hb => exact .inr (.inl ⟨a, bs, h, hb, rfl⟩)
  | readBytes got _ h hv hg =>
    refine .inr (.inr ⟨h, hv, got, ?_, rfl⟩)
    rw [State.reg_setReg, if_pos (show (2 : Reg) = serviceReg from rfl), w32, BitVec.toNat_ofInt]
    omega
  | _ => exact .inl rfl

theorem keepsMemory_of_mem_eq (h : t.mem = s.mem) : KeepsMemory s t := fun a => by
  rw [State.byteAt, State.byteAt, h]

end

/-- Settles O44: a step that goes on runs one instruction, and no effect of an instruction changes the image. -/
theorem programIsImmutable : Obligations.ProgramIsImmutable := by
  intro s t hstep
  obtain ⟨_, i, _, _, _, hexec⟩ := step_eq_next hstep
  have he : Effect s.advance (.next t) := hexec ▸ exec_effect i s.advance
  exact he.keepsImage

/-- Settles O47: only the completions of branches and jumps set pc. -/
theorem onlyTransfersChangePc : Obligations.OnlyTransfersChangePc :=
  fun _ _ _ hexec hop => (exec_completion hexec).pc_eq hop

/-- Settles O46: the only completions that write memory are a store's and that of service 8, and a byte
outside the bytes written reads as before. -/
theorem memoryChangesOnlyWhereStored : Obligations.MemoryChangesOnlyWhereStored := by
  intro i s t hexec hwf
  obtain hm | ⟨a, bs, htarget, hb, hm⟩ | ⟨rfl, hv, got, hcount, hm⟩ := (exec_completion hexec).mem_cases
  · have hk : KeepsMemory s t := keepsMemory_of_mem_eq hm
    exact ⟨fun _ _ _ b _ => hk b, fun _ _ => hk, fun _ _ => hk, fun _ _ b _ => hk b⟩
  · have hne : i ≠ .syscall := fun h => by subst h; cases htarget
    refine ⟨fun a' n h b hout => ?_, fun h => absurd (htarget.symm.trans h) nofun,
      fun h => absurd h hne, fun h => absurd h hne⟩
    obtain ⟨rfl, rfl⟩ := Prod.mk.inj (Option.some.inj (htarget.symm.trans h))
    have h0 := (State.inBounds_iff.1 hb).1
    rw [State.byteAt, hm]
    exact Memory.read_writeBytes_outside a.toNat bs b hwf (by omega)
  · refine ⟨nofun, fun _ h => absurd rfl h, fun _ h => absurd hv h, fun _ _ b hout => ?_⟩
    rw [State.byteAt, hm]
    exact Memory.read_writeBytes_outside _ got b hwf (hcount ▸ hout)

/-- Settles O21: a write puts the value in its register, register 0 too, and move copies it. -/
theorem everyRegisterKeepsWhatIsWritten : Obligations.EveryRegisterKeepsWhatIsWritten := by
  intro r d v s
  refine ⟨s.setReg r v, (s.setReg r v).setReg d ((s.setReg r v).reg r), rfl, ?_, rfl, ?_, ?_⟩
  · rw [State.reg_setReg, if_pos rfl]
  · rw [State.reg_setReg, if_pos rfl, State.reg_setReg, if_pos rfl]
  · rw [State.reg_setReg, State.reg_setReg, if_pos rfl, ite_self]

end Sys2Proof.Machine
end

section
/-! PROOFS. HI and LO (R25): an instruction that does not read them answers the same, but for HI and LO, in states that differ only there; and only the divisions, the products and the two moves to them write them. -/

namespace Sys2Proof.Machine

/-! ## States and answers that differ only in HI and LO -/

/-- The state `s` with HI and LO replaced. -/
def State.withHiLo (s : State) (hi lo : Word) : State := { s with hi := hi, lo := lo }

/-- `u` and `t` differ at most in HI and LO. -/
def EqOffHiLo (t u : State) : Prop := u.withHiLo t.hi t.lo = t

/-- Two answers of one kind, with one fault, whose states differ at most in HI and LO. -/
inductive AnswersAlike : Result → Result → Prop where
  | next {t u : State} (h : EqOffHiLo t u) : AnswersAlike (.next t) (.next u)
  | raised (f : RunFault) {t u : State} (h : EqOffHiLo t u) :
      AnswersAlike (.fault (.raised f t)) (.fault (.raised f u))

theorem AnswersAlike.of_next {t : State} {x : Result} (h : AnswersAlike (.next t) x) :
    ∃ u, x = .next u ∧ EqOffHiLo t u := by
  cases h with
  | next h => exact ⟨_, rfl, h⟩

theorem AnswersAlike.of_raised {f : RunFault} {t : State} {x : Result}
    (h : AnswersAlike (.fault (.raised f t)) x) : ∃ u, x = .fault (.raised f u) ∧ EqOffHiLo t u := by
  cases h with
  | raised _ h => exact ⟨_, rfl, h⟩

theorem AnswersAlike.ite {c : Prop} [Decidable c] {x y x' y' : Result} (h : AnswersAlike x y)
    (h' : AnswersAlike x' y') : AnswersAlike (if c then x else x') (if c then y else y') := by
  split
  · exact h
  · exact h'

section
variable (s : State) (hi lo : Word)

@[simp] theorem State.withHiLo_reg (i : Reg) : (s.withHiLo hi lo).reg i = s.reg i := rfl
@[simp] theorem State.withHiLo_mem : (s.withHiLo hi lo).mem = s.mem := rfl
@[simp] theorem State.withHiLo_memSize : (s.withHiLo hi lo).memSize = s.memSize := rfl
@[simp] theorem State.withHiLo_consoleIn : (s.withHiLo hi lo).consoleIn = s.consoleIn := rfl
@[simp] theorem State.withHiLo_memRead (a : Int) (n : Nat) :
    (s.withHiLo hi lo).memRead a n = s.memRead a n := rfl
theorem State.withHiLo_setInput (rest : List Byte) :
    (s.withHiLo hi lo).setInput rest = (s.setInput rest).withHiLo hi lo := rfl

theorem State.withHiLo_memWrite (a : Int) (bs : List Byte) :
    (s.withHiLo hi lo).memWrite a bs = (s.memWrite a bs).map (State.withHiLo · hi lo) := by
  rw [State.memWrite, State.memWrite, apply_ite (Option.map _)]
  rfl

/-! ## The shared operations -/

theorem AnswersAlike.ofRaise (f : RunFault) : AnswersAlike (raise f s) (raise f (s.withHiLo hi lo)) :=
  .raised f rfl

theorem AnswersAlike.ofWriteReg (rd : Reg) (v : Word) :
    AnswersAlike (writeReg rd v s) (writeReg rd v (s.withHiLo hi lo)) := .next rfl

theorem AnswersAlike.ofDivide (a b : Int) :
    AnswersAlike (divideInto a b s) (divideInto a b (s.withHiLo hi lo)) :=
  .ite (.ofRaise s hi lo _) (.next rfl)

theorem AnswersAlike.ofRemainder (rd : Reg) (a b : Int) :
    AnswersAlike (remainderInto rd a b s) (remainderInto rd a b (s.withHiLo hi lo)) :=
  .ite (.ofRaise s hi lo _) (.ofWriteReg s hi lo rd _)

theorem AnswersAlike.ofShift (kind : ShiftKind) (rd : Reg) (v : Word) (n : Nat) :
    AnswersAlike (shiftInto kind rd v n s) (shiftInto kind rd v n (s.withHiLo hi lo)) := by
  refine .ite (.ofWriteReg s hi lo rd _) ?_
  cases Config.shiftWide kind v n with
  | some w => exact .ofWriteReg s hi lo rd w
  | none => exact .ofRaise s hi lo _

theorem AnswersAlike.ofBranch (c : Bool) (target : Word) :
    AnswersAlike (branchIf c target s) (branchIf c target (s.withHiLo hi lo)) := by
  cases c
  · exact .next rfl
  · exact .next rfl

theorem AnswersAlike.ofLoad (rt : Reg) (a : Int) (n : Nat) (widen : Nat → Word) :
    AnswersAlike (loadInto rt a n widen s) (loadInto rt a n widen (s.withHiLo hi lo)) := by
  simp only [loadInto, State.withHiLo_memRead]
  split
  · exact .ofWriteReg s hi lo rt _
  · exact .ofRaise s hi lo _

theorem AnswersAlike.ofStore (a : Int) (n : Nat) (v : Word) :
    AnswersAlike (storeAt a n v s) (storeAt a n v (s.withHiLo hi lo)) := by
  simp only [storeAt, State.withHiLo_memWrite]
  cases s.memWrite a (leBytes n v) with
  | some t => exact .next rfl
  | none => exact .ofRaise s hi lo _

/-! ## The services of syscall -/

theorem AnswersAlike.ofPrintString :
    AnswersAlike (servicePrintString s) (servicePrintString (s.withHiLo hi lo)) := by
  simp only [servicePrintString, State.withHiLo_reg, State.withHiLo_mem, State.withHiLo_memSize]
  split
  · exact .next rfl
  · exact .ofRaise s hi lo _

theorem AnswersAlike.ofReadInteger :
    AnswersAlike (serviceReadInteger s) (serviceReadInteger (s.withHiLo hi lo)) := by
  simp only [serviceReadInteger, State.withHiLo_consoleIn]
  split
  · exact .ofRaise s hi lo _
  · split
    · exact .raised _ rfl
    · exact .next rfl

theorem AnswersAlike.ofReadBytes :
    AnswersAlike (serviceReadBytes s) (serviceReadBytes (s.withHiLo hi lo)) := by
  simp only [serviceReadBytes, State.withHiLo_reg, State.withHiLo_consoleIn, State.withHiLo_setInput,
    State.withHiLo_memWrite]
  refine .ite (.next rfl) ?_
  cases State.memWrite (s.setInput _) _ _ with
  | some t => exact .next rfl
  | none => exact .raised _ rfl

theorem AnswersAlike.ofReadCharacter :
    AnswersAlike (serviceReadCharacter s) (serviceReadCharacter (s.withHiLo hi lo)) := by
  simp only [serviceReadCharacter, State.withHiLo_consoleIn]
  split
  · exact .ofRaise s hi lo _
  · exact .next rfl

theorem AnswersAlike.ofSyscall : AnswersAlike (execSyscall s) (execSyscall (s.withHiLo hi lo)) :=
  .ite (.next rfl) <| .ite (.ofPrintString s hi lo) <| .ite (.ofReadInteger s hi lo) <|
    .ite (.ofReadBytes s hi lo) <| .ite (.next rfl) <| .ite (.next rfl) <|
    .ite (.ofReadCharacter s hi lo) (.ofRaise s hi lo _)

end

/-- Every instruction but mfhi and mflo answers alike in states that differ only in HI and LO. -/
theorem exec_withHiLo (i : Instr) (s : State) (hi lo : Word) (hread : ∀ rd, i ≠ .mfhi rd ∧ i ≠ .mflo rd) :
    AnswersAlike (exec i s) (exec i (s.withHiLo hi lo)) := by
  cases i with
  | mfhi rd => exact absurd rfl (hread rd).1
  | mflo rd => exact absurd rfl (hread rd).2
  | add | addu | addi | addiu | and | andi | or | ori | xor | xori | nor | sub | subu | mul | mulu | sra
  | slt | sltu | slti | sltiu | laDirect | laIndirect | liDirect | liIndirect | lhi | llo | move =>
    exact .ofWriteReg s hi lo _ _
  | div | divu => exact .ofDivide s hi lo _ _
  | remReg | remImm => exact .ofRemainder s hi lo _ _ _
  | sllReg | sllImm | srlReg | srlImm | sllv | srlv | srav => exact .ofShift s hi lo _ _ _ _
  | beq | bne | blt | bgt | bgez | bgtz | blez => exact .ofBranch s hi lo _ _
  | lbDirect | lbIndirect | lbuDirect | lbuIndirect | lhDirect | lhIndirect | lhuDirect | lhuIndirect
  | lwDirect | lwIndirect => exact .ofLoad s hi lo _ _ _ _
  | sbDirect | sbIndirect | shDirect | shIndirect | swDirect | swIndirect => exact .ofStore s hi lo _ _ _
  | mult | multu | mthi | mtlo | j | jal | jr | jalr | nop => exact .next rfl
  | syscall => exact .ofSyscall s hi lo

/-- Settles O45: who writes HI and LO is read off the completions, and that the rest does not depend on
them is `exec_withHiLo`. -/
theorem hiAndLoHaveOnlyTheirOwnInstructions : Obligations.HiAndLoHaveOnlyTheirOwnInstructions := by
  refine ⟨fun i s t hexec => ?_, fun i s hi lo hread => ?_⟩
  · have hc := exec_completion hexec
    exact ⟨hc.hi_cases.resolve_left, hc.lo_cases.resolve_left⟩
  · have h := exec_withHiLo i s hi lo hread
    exact ⟨fun _ hexec => (hexec ▸ h).of_next, fun _ _ hexec => (hexec ▸ h).of_raised⟩

end Sys2Proof.Machine
end

section
/-! PROOFS. Canonical memory (R29, log 9) and the load of an image (R33, R250). -/

namespace Sys2Proof.Machine

/-! ## Canonical memories that read alike -/

theorem Memory.read_cons_self (k : Nat) (b : Byte) (m : Memory) : Memory.read ((k, b) :: m) k = b := if_pos rfl

theorem Memory.read_cons_of_ne {k a : Nat} (b : Byte) (m : Memory) (h : k ≠ a) :
    Memory.read ((k, b) :: m) a = Memory.read m a := if_neg h

/-- In canonical form the first listed address is the least one that does not read as unlisted: a memory
that reads like another lists nothing before the other's first address. -/
theorem Memory.le_of_read_eq {lo k k' : Nat} {b b' : Byte} {m m' : Memory}
    (hm : Memory.wfFrom lo ((k, b) :: m) = true) (hm' : Memory.wfFrom lo ((k', b') :: m') = true)
    (h : ∀ a, Memory.read ((k, b) :: m) a = Memory.read ((k', b') :: m') a) : k' ≤ k := by
  obtain ⟨_, hb, _⟩ := Memory.wfFrom_cons.1 hm
  obtain ⟨_, hb', ht'⟩ := Memory.wfFrom_cons.1 hm'
  by_contra hlt
  have hfrom : Memory.wfFrom k' ((k', b') :: m') = true := Memory.wfFrom_cons.2 ⟨le_rfl, hb', ht'⟩
  refine hb ?_
  calc b = Memory.read ((k, b) :: m) k := (Memory.read_cons_self k b m).symm
    _ = Memory.read ((k', b') :: m') k := h k
    _ = Memory.unlisted := Memory.read_eq_unlisted (by omega) hfrom

theorem Memory.eq_nil_of_read_unlisted {lo : Nat} {m : Memory} (hm : Memory.wfFrom lo m = true)
    (h : ∀ a, Memory.read m a = Memory.unlisted) : m = [] := by
  cases m with
  | nil => rfl
  | cons c m =>
    obtain ⟨k, b⟩ := c
    obtain ⟨_, hb, _⟩ := Memory.wfFrom_cons.1 hm
    exact absurd (Memory.read_cons_self k b m ▸ h k) hb

theorem Memory.eq_of_read_eq {lo : Nat} {m m' : Memory} (hm : Memory.wfFrom lo m = true)
    (hm' : Memory.wfFrom lo m' = true) (h : ∀ a, Memory.read m a = Memory.read m' a) : m = m' := by
  induction m generalizing lo m' with
  | nil => exact (Memory.eq_nil_of_read_unlisted hm' (fun a => (h a).symm)).symm
  | cons c m ih =>
    cases m' with
    | nil => exact Memory.eq_nil_of_read_unlisted hm h
    | cons c' m' =>
      obtain ⟨k, b⟩ := c
      obtain ⟨k', b'⟩ := c'
      obtain rfl : k = k' := le_antisymm (Memory.le_of_read_eq hm' hm (fun a => (h a).symm))
        (Memory.le_of_read_eq hm hm' h)
      obtain rfl : b = b' := by simpa only [Memory.read_cons_self] using h k
      obtain ⟨_, _, ht⟩ := Memory.wfFrom_cons.1 hm
      obtain ⟨_, _, ht'⟩ := Memory.wfFrom_cons.1 hm'
      have htail : ∀ a, Memory.read m a = Memory.read m' a := fun a => by
        by_cases ha : k = a
        · rw [Memory.read_eq_unlisted (by omega) ht, Memory.read_eq_unlisted (by omega) ht']
        · simpa only [Memory.read_cons_of_ne _ _ ha] using h a
      rw [ih ht ht' htail]

/-- Settles O55, by induction on the cells: the first cells agree, and below and at their address both
tails read as unlisted. -/
theorem canonicalMemoriesThatReadAlikeAreEqual : Obligations.CanonicalMemoriesThatReadAlikeAreEqual :=
  fun _ _ hm hm' h => Memory.eq_of_read_eq hm hm' h

/-! ## The load -/

section
variable (r : ResetRegs) (img : Image) (input : List Byte)

/-- The load refuses the image, or the image is within the bounds of R7 and legal and its state is R33's. -/
theorem load_cases :
    (∃ why, load r img input = .refused why)
    ∨ (load r img input = .next (loadedState r img input) ∧ img.records.length ≤ Config.maxRecords ∧
        img.data.length + Config.stackSpace ≤ Config.maxMemSize ∧ ∀ w ∈ img.records, legalRecord w = true) := by
  unfold load
  split
  · exact .inl ⟨_, rfl⟩
  · split
    · exact .inl ⟨_, rfl⟩
    · split
      · exact .inl ⟨_, rfl⟩
      · rename_i hlen hsize hlegal
        exact .inr ⟨rfl, by omega, by omega, (firstIllegal_eq_none 0 img.records).1 hlegal⟩

theorem loadedState_reg (i : Reg) :
    (loadedState r img input).reg i =
      if i = 29 then w32 ((img.data.length + Config.stackSpace : Nat) : Int) else r.x.get i :=
  State.reg_setReg { loadedState r img input with regs := r.x } 29 i _

theorem loadedState_byteAt (a : Nat) : (loadedState r img input).byteAt a = img.data.getD a 0#8 := by
  have h := Memory.read_ofData 0 img.data a
  rwa [if_pos (Nat.zero_le a), Nat.sub_zero] at h

theorem loadedState_inv (hlen : img.records.length ≤ Config.maxRecords)
    (hsize : img.data.length + Config.stackSpace ≤ Config.maxMemSize)
    (hlegal : ∀ w ∈ img.records, legalRecord w = true) : (loadedState r img input).Inv where
  memCanonical := Memory.wf_ofData img.data
  memBelow := Memory.below_ofData 0 img.data _ (by show _ ≤ img.data.length + Config.stackSpace; omega)
  hasStack := Nat.le_add_left _ _
  memSizeBound := hsize
  progBound := hlen
  progLegal := hlegal

theorem load_empty : load r ⟨[], []⟩ input = .next (loadedState r ⟨[], []⟩ input) :=
  load_eq_next (Nat.zero_le _) (by decide) nofun

end

/-- Settles O50: the load's own case split, and each field of the loaded state. -/
theorem loadGivesTheStateAfterReset : Obligations.LoadGivesTheStateAfterReset := by
  intro r img input
  refine ⟨fun hbad => ?_, fun hlen hsize hlegal => ?_⟩
  · obtain hrefused | ⟨_, hlen, hsize, hlegal⟩ := load_cases r img input
    · exact hrefused
    · simp only [Config.maxRecords, Config.stackSpace, Config.maxMemSize] at hlen hsize
      obtain hlong | hlarge | ⟨w, hw, hillegal⟩ := hbad
      · omega
      · omega
      · exact absurd (hlegal w hw) (by simp [hillegal])
  · exact ⟨loadedState r img input, load_eq_next hlen hsize hlegal, loadedState_reg r img input, rfl, rfl,
      rfl, rfl, loadedState_byteAt r img input, rfl, rfl, rfl, rfl⟩

/-- Settles O53: an image that is loaded is within the bounds and legal. -/
theorem loadMeetsTheInvariant : Obligations.LoadMeetsTheInvariant := by
  intro r img input t hload
  obtain ⟨why, hrefused⟩ | ⟨hnext, hlen, hsize, hlegal⟩ := load_cases r img input
  · exact nomatch hrefused.symm.trans hload
  · cases hnext.symm.trans hload
    exact loadedState_inv r img input hlen hsize hlegal

/-- Settles O51: the empty image is within every bound, and no record is below N = 0. -/
theorem resetIsTheLoadOfTheEmptyImage : Obligations.ResetIsTheLoadOfTheEmptyImage :=
  ⟨load_empty Config.zeroRegs [], loadedState_reg Config.zeroRegs ⟨[], []⟩ [] 29, _, rfl⟩

/-- Settles O52: reset is a load (O51), and every load meets the invariant (O53). -/
theorem resetMeetsTheInvariant : Obligations.ResetMeetsTheInvariant :=
  loadMeetsTheInvariant Config.zeroRegs ⟨[], []⟩ [] State.reset resetIsTheLoadOfTheEmptyImage.1

end Sys2Proof.Machine
end

section
/-! PROOFS. A word stored is loaded back, whole or in part, whatever the alignment (R45 to R47, R255). -/

namespace Sys2Proof.Machine

/-! ## The bytes of a word in memory -/

/-- The value of a word's low `n` bytes is the value of its low `8n` bits. -/
theorem leValue_leBytes (n : Nat) (v : Word) : leValue (leBytes n v) = v.toNat % 2 ^ (8 * n) := by
  induction n generalizing v with
  | zero => exact (Nat.mod_one _).symm
  | succ n ih =>
    rw [leBytes, leValue, ih, BitVec.toNat_setWidth, BitVec.toNat_ushiftRight, Nat.shiftRight_eq_div_pow,
      Nat.mul_succ, Nat.add_comm (8 * n), Nat.pow_add, Nat.mod_mul]

/-- Inside the bytes of a stored word, the `n` bytes from byte `k` up are those of the word shifted
down to byte `k`. -/
theorem Memory.readBytes_writeBytes_leBytes {m : Memory} (a w : Nat) (v : Word) (k n : Nat)
    (hm : Memory.wf m = true) (h : k + n ≤ w) :
    Memory.readBytes (Memory.writeBytes m a (leBytes w v)) (a + k) n = leBytes n (v >>> (8 * k)) := by
  induction n generalizing k with
  | zero => rfl
  | succ n ih =>
    have hk : k < (leBytes w v).length := by rw [leBytes_length]; omega
    have hbyte : v.extractLsb' (8 * k) 8 = (v >>> (8 * k)).setWidth 8 := BitVec.eq_of_toNat_eq (by simp)
    rw [Memory.readBytes, Memory.read_writeBytes_inside a _ k hm hk, leBytes_getElem, hbyte, Nat.add_assoc,
      ih (k + 1) (by omega), Nat.mul_succ, BitVec.shiftRight_add, leBytes]

/-- The value of the `n` bytes from byte `k` up of a stored word is bits `8(k+n)-1 .. 8k` of the word. -/
theorem Memory.ofNat_leValue_readBytes_writeBytes {m : Memory} (a w : Nat) (v : Word) (k n : Nat)
    (hm : Memory.wf m = true) (h : k + n ≤ w) :
    BitVec.ofNat (8 * n) (leValue (Memory.readBytes (Memory.writeBytes m a (leBytes w v)) (a + k) n)) =
      v.extractLsb' (8 * k) (8 * n) := by
  rw [Memory.readBytes_writeBytes_leBytes a w v k n hm h, leValue_leBytes]
  exact BitVec.eq_of_toNat_eq (by simp)

/-! ## A load after a store -/

theorem storeAt_eq_next {a : Int} {n : Nat} {v : Word} {s t : State} :
    storeAt a n v s = .next t ↔
      s.inBounds a n = true ∧ t = s.setMem (Memory.writeBytes s.mem a.toNat (leBytes n v)) := by
  cases hb : s.inBounds a n with
  | true => simp [storeAt_of_inBounds hb, eq_comm]
  | false => simp [storeAt_of_outOfBounds hb, raise_ne_next]

/-- After a store of `w` bytes of `v`, an instruction that loads `n` bytes from byte `k` of them up
completes, with those bits of `v`, extended, in its register. -/
theorem completes_load_of_storeAt {a b : Int} {w k n : Nat} {v : Word} {s t : State} {i : Instr} {rd : Reg}
    (extend : BitVec (8 * n) → Word) (hm : Memory.wf s.mem = true) (hstore : storeAt a w v s = .next t)
    (hb : b = a + k) (h : k + n ≤ w)
    (hexec : exec i t = loadInto rd b n (fun x => extend (BitVec.ofNat (8 * n) x)) t) :
    Completes i t (fun u => u.reg rd = extend (v.extractLsb' (8 * k) (8 * n))) := by
  obtain ⟨hin, rfl⟩ := storeAt_eq_next.1 hstore
  obtain ⟨h0, hend⟩ := State.inBounds_iff.1 hin
  have hload : s.inBounds b n = true := State.inBounds_iff.2 (by omega)
  have hbyte : b.toNat = a.toNat + k := by omega
  refine ⟨_, hexec.trans (loadInto_of_inBounds hload), ?_⟩
  simp only [State.reg_setReg, if_true, State.setMem_mem, hbyte,
    Memory.ofNat_leValue_readBytes_writeBytes a.toNat w v k n hm h]

/-- A word holds the address of every byte of memory: MEMSIZE is at most `2^31` (R7). -/
theorem State.Inv.uval_w32 {s : State} (hs : s.Inv) {a : Int} (h0 : 0 ≤ a) (h : a < s.memSize) :
    uval (w32 a) = a := by
  have hsize : s.memSize ≤ 2 ^ 31 := hs.memSizeBound
  rw [uval, w32, BitVec.toNat_ofInt]
  omega

/-- Settles O24: each of the loads reads bytes inside the four that sw wrote. -/
theorem storedWordIsLoadedBack : Obligations.StoredWordIsLoadedBack := by
  intro rt rd address s hs hend
  have h0 : 0 ≤ uval address := Int.natCast_nonneg _
  have hin : s.inBounds (uval address) 4 = true := State.inBounds_iff.2 ⟨h0, hend⟩
  have hstore := storeAt_of_inBounds (v := s.reg rt) hin
  have hzero : uval address = uval address + (0 : Nat) := (Int.add_zero _).symm
  refine ⟨_, hstore, ?_, ?_, fun k hk => ?_⟩
  · have hlw : Completes (.lwDirect rd address) _ (fun u => u.reg rd = (s.reg rt).extractLsb' 0 32) :=
      completes_load_of_storeAt (k := 0) (n := 4) id hs.memCanonical hstore hzero (by omega) rfl
    rwa [BitVec.extractLsb'_eq_self] at hlw
  · exact completes_load_of_storeAt (k := 0) (n := 2) (BitVec.setWidth 32) hs.memCanonical hstore hzero
      (by omega) rfl
  · have haddress : uval (w32 (uval address + k)) = uval address + k := hs.uval_w32 (by omega) (by omega)
    exact completes_load_of_storeAt (n := 1) (BitVec.setWidth 32) hs.memCanonical hstore haddress
      (by omega) rfl

end Sys2Proof.Machine
end

section
/-! PROOFS. The decoder and the encoder are inverse to each other, and legality is read off the bits of a record (R62, R63, R65, R68, D1). -/

namespace Sys2Proof

open Machine

/-! ## Round trip -/

/-- The record fields of a well-formed instruction are read back as the instruction: only the literal
shifts, lhi and llo have an operand to check. -/
theorem ofFields_fields {i : Instr} (hwf : i.wf = true) : ofFields i.fields = .ok i := by
  cases i with
  | sllImm rd rt sa => exact Laws.FieldsRoundTrip.sllImm rd rt sa hwf
  | srlImm rd rt sa => exact Laws.FieldsRoundTrip.srlImm rd rt sa hwf
  | sra rd rt sa => exact Laws.FieldsRoundTrip.sra rd rt sa hwf
  | lhi rt value => exact Laws.FieldsRoundTrip.lhi rt value hwf
  | llo rt value => exact Laws.FieldsRoundTrip.llo rt value hwf
  | _ => rfl

/-- The decoder accepts exactly the fields of the well-formed instructions. -/
theorem ofFields_eq_ok_iff {f : Fields} {i : Instr} : ofFields f = .ok i ↔ i.fields = f ∧ i.wf = true := by
  constructor
  · intro h
    obtain ⟨m, hm, hres, hzero, hassemble, hwf⟩ := ofFields_ok h
    exact ⟨fields_of_assemble (tag_of_mnemonicOf hm) hres hzero hassemble, hwf⟩
  · rintro ⟨rfl, hwf⟩
    exact ofFields_fields hwf

/-- Legal records and well-formed instructions correspond one to one. -/
theorem decode_eq_ok_iff {w : Record} {i : Instr} : decode w = .ok i ↔ encode i = w ∧ i.wf = true := by
  rw [decode, ofFields_eq_ok_iff, encode]
  refine and_congr_left fun _ => ⟨fun h => ?_, fun h => ?_⟩
  · rw [h, pack_unpack]
  · rw [← h, unpack_pack]

/-- Settles O36: the packing and the reading of the fields are inverse to each other. -/
theorem decodeOfEncodeIsTheInstruction : Obligations.DecodeOfEncodeIsTheInstruction :=
  fun _ hwf => decode_eq_ok_iff.2 ⟨rfl, hwf⟩

/-- Settles O37: what the decoder accepts has the fields of the word, and they pack to the word. -/
theorem encodeOfDecodeIsTheWord : Obligations.EncodeOfDecodeIsTheWord :=
  fun _ _ h => decode_eq_ok_iff.1 h

/-- Settles O35: each word is the encoding of its well-formed instruction. -/
theorem wordsOfEachFamilyDecode : Obligations.WordsOfEachFamilyDecode := by
  refine ⟨?_, ?_, ?_, ?_, ?_, ?_, ?_, ?_, ?_, ?_, ?_, ?_, ?_⟩ <;> exact decode_eq_ok_iff.2 (by decide)

/-! ## Legality of a record's fields (R68) -/

/-- R68 (e) and (f): a literal shift amount is at most 31 and a half value is within 16 bits. -/
def Fields.LiteralInRange (f : Fields) : Prop :=
  (f.op.val = 25 ∨ (f.op.val = 21 ∨ f.op.val = 22) ∧ f.form.code = 4 → f.imm.toNat ≤ 31) ∧
  (f.op.val = 44 ∨ f.op.val = 45 → -2 ^ 15 ≤ f.imm.toInt ∧ f.imm.toInt ≤ 2 ^ 16 - 1)

/-- R68 (a) to (f), of the fields. -/
def Fields.Legal (f : Fields) : Prop :=
  (1 ≤ f.op.val ∧ f.op.val ≤ 60) ∧ f.form.code ∈ legalForms f.op.val ∧ f.res = 0 ∧ f.unusedZero = true ∧
    f.LiteralInRange

theorem Mnemonic.tag_range (m : Mnemonic) : 1 ≤ m.tag.val ∧ m.tag.val ≤ 60 := by cases m <;> decide

/-- R64 numbers the mnemonics 1 to 60 without a gap. -/
theorem exists_tag_eq {op : Fin 256} (h : 1 ≤ op.val ∧ op.val ≤ 60) : ∃ m : Mnemonic, m.tag = op := by
  have htable : ∀ k : Fin 60, (allMnemonics[k.val]'k.isLt).tag.val = k.val + 1 := by decide
  refine ⟨_, Fin.ext ((htable ⟨op.val - 1, by omega⟩).trans ?_)⟩
  show op.val - 1 + 1 = op.val
  omega

/-- R65: `assemble` knows exactly the legal forms of each tag. -/
theorem assemble_isSome (m : Mnemonic) (f : Fields) :
    (assemble m f).isSome = decide (f.form.code ∈ legalForms m.tag.val) := by
  obtain ⟨op, form, ra, rb, rc, res, imm⟩ := f
  cases m <;> cases form <;> rfl

theorem shiftLiteralOk_iff (sa : Word) : shiftLiteralOk sa = true ↔ sa.toNat ≤ 31 := by
  rw [shiftLiteralOk, decide_eq_true_iff, uval]
  omega

theorem halfLiteralOk_iff (value : Word) :
    halfLiteralOk value = true ↔ -2 ^ 15 ≤ value.toInt ∧ value.toInt ≤ 2 ^ 16 - 1 := by
  rw [halfLiteralOk, decide_eq_true_iff, sval]
  omega

/-- Well-formedness of an instruction is the range check on its fields; tag and form say which, if any. -/
theorem Instr.wf_iff_literalInRange (i : Instr) : i.wf = true ↔ i.fields.LiteralInRange := by
  cases i with
  | sllImm _ _ sa | srlImm _ _ sa | sra _ _ sa =>
    exact (shiftLiteralOk_iff sa).trans
      ⟨fun h => ⟨fun _ => h, fun hop => absurd hop (of_decide_eq_false rfl)⟩, fun h => h.1 (of_decide_eq_true rfl)⟩
  | lhi _ value | llo _ value =>
    exact (halfLiteralOk_iff value).trans
      ⟨fun h => ⟨fun hop => absurd hop (of_decide_eq_false rfl), fun _ => h⟩, fun h => h.2 (of_decide_eq_true rfl)⟩
  | _ =>
    exact iff_of_true rfl
      ⟨fun hop => absurd hop (of_decide_eq_false rfl), fun hop => absurd hop (of_decide_eq_false rfl)⟩

theorem Fields.legal_iff_exists (f : Fields) : f.Legal ↔ ∃ i : Instr, i.fields = f ∧ i.wf = true := by
  constructor
  · rintro ⟨hop, hform, hres, hzero, hlit⟩
    obtain ⟨m, hm⟩ := exists_tag_eq hop
    obtain ⟨i, hassemble⟩ : ∃ i, assemble m f = some i := by
      rw [← Option.isSome_iff_exists, assemble_isSome, hm]
      exact decide_eq_true hform
    obtain rfl : i.fields = f := fields_of_assemble hm hres hzero hassemble
    exact ⟨i, rfl, i.wf_iff_literalInRange.2 hlit⟩
  · rintro ⟨i, rfl, hwf⟩
    obtain ⟨m, hm, hres, hzero, hassemble, -⟩ := ofFields_ok (ofFields_fields hwf)
    have htag : m.tag = i.fields.op := tag_of_mnemonicOf hm
    have hform := assemble_isSome m i.fields
    rw [hassemble, htag] at hform
    exact ⟨htag ▸ m.tag_range, of_decide_eq_true hform.symm, hres, hzero, i.wf_iff_literalInRange.1 hwf⟩

theorem legalRecord_iff (w : Record) : legalRecord w = true ↔ (unpack w).Legal := by
  rw [Fields.legal_iff_exists, legalRecord, decode]
  simp only [← ofFields_eq_ok_iff]
  cases ofFields (unpack w) with
  | error e => exact iff_of_false nofun nofun
  | ok i => exact iff_of_true rfl ⟨i, rfl⟩

/-! ## The fields as bits of the word (R62, R63) -/

theorem recordField_eq (w : Record) (lo width : Nat) : recordField w lo width = (w.extractLsb' lo width).toNat := by
  rw [recordField, BitVec.extractLsb'_toNat, Nat.shiftRight_eq_div_pow]

theorem ofNat_recordField_eq_zero (w : Record) (lo width : Nat) :
    Fin.ofNat (2 ^ width) (recordField w lo width) = 0 ↔ w.extractLsb' lo width = 0#width := by
  rw [recordField_eq, Fin.ext_iff, Fin.val_ofNat, Nat.mod_eq_of_lt (BitVec.isLt _), BitVec.toNat_eq]
  simp

theorem unpack_op (w : Record) : (unpack w).op.val = (w.extractLsb' 0 8).toNat :=
  (Nat.mod_eq_of_lt (Nat.mod_lt _ (by decide))).trans (recordField_eq w 0 8)

theorem unpack_form_code (w : Record) : (unpack w).form.code = (w.extractLsb' 8 3).toNat :=
  (Form.code_ofCode _ (Nat.mod_lt _ (by decide))).trans (recordField_eq w 8 3)

theorem unpack_imm (w : Record) : (unpack w).imm = w.extractLsb' 32 32 := by
  show BitVec.ofNat 32 (recordField w 32 32) = _
  rw [recordField_eq, BitVec.ofNat_toNat, BitVec.setWidth_eq]

/-- R63: which fields are 0, by the code of the form. -/
theorem Fields.unusedZero_iff (f : Fields) : f.unusedZero = true ↔
    (f.form.code ∈ [0, 7] → f.ra = 0) ∧ (f.form.code ∈ [0, 1, 5, 7] → f.rb = 0) ∧
    (f.form.code ≠ 3 → f.rc = 0) ∧ (f.form.code ∈ [0, 1, 2, 3] → f.imm = 0#32) := by
  obtain ⟨op, form, ra, rb, rc, res, imm⟩ := f
  cases form <;> simp [Fields.unusedZero, Form.code, and_assoc]

theorem legalWord_iff (w : Record) : LegalWord w ↔ (unpack w).Legal := by
  have hra : (unpack w).ra = 0 ↔ w.extractLsb' 11 5 = 0#5 := ofNat_recordField_eq_zero w 11 5
  have hrb : (unpack w).rb = 0 ↔ w.extractLsb' 16 5 = 0#5 := ofNat_recordField_eq_zero w 16 5
  have hrc : (unpack w).rc = 0 ↔ w.extractLsb' 21 5 = 0#5 := ofNat_recordField_eq_zero w 21 5
  have hres : (unpack w).res = 0 ↔ w.extractLsb' 26 6 = 0#6 := ofNat_recordField_eq_zero w 26 6
  simp only [LegalWord, Fields.Legal, Fields.LiteralInRange, Fields.unusedZero_iff, unpack_op, unpack_form_code,
    unpack_imm, hra, hrb, hrc, hres, and_assoc]

/-- Settles O38: both sides are conditions on the fields of the word, and a load checks every record. -/
theorem legalRecordsAreThoseOfTheSpec : Obligations.LegalRecordsAreThoseOfTheSpec := by
  have hlegal (w : Record) : legalRecord w = true ↔ LegalWord w :=
    (legalRecord_iff w).trans (legalWord_iff w).symm
  refine ⟨hlegal, fun r img input ⟨w, hw, hillegal⟩ => ?_⟩
  obtain hrefused | ⟨_, _, _, hall⟩ := load_cases r img input
  · exact hrefused
  · exact absurd ((hlegal w).1 (hall w hw)) hillegal

end Sys2Proof
end

section
/-! PROOFS. The step at the fetch (R71, R223): what it does with each record, and that in the invariant it is never refused. -/

namespace Sys2Proof.Machine

theorem step_of_fetch {s : State} {w : Record} {i : Instr} (hs : s.status = .running) (hf : s.fetch = some w)
    (hd : decode w = .ok i) : step s = exec i s.advance := by
  simp only [step, hs, hf, hd]

theorem step_of_fetch_eq_none {s : State} (hs : s.status = .running) (hf : s.fetch = none) :
    step s = raise (.badOffset s.pc) s := by
  simp only [step, hs, hf]

theorem step_of_not_running {s : State} (hs : s.status ≠ .running) : step s = .refused (.halted s.status) := by
  cases h : s.status with
  | running => exact absurd h hs
  | exited code => simp only [step, h]
  | faulted f => simp only [step, h]

/-- Settles O39: the three cases of the step's own definition. -/
theorem stepRunsTheDecodedInstruction : Obligations.StepRunsTheDecodedInstruction := by
  refine ⟨fun s hs => ⟨fun w i hf hd => step_of_fetch hs hf hd, fun hlen => ?_⟩, fun s hs t r => ?_⟩
  · exact step_of_fetch_eq_none hs (List.getElem?_eq_none hlen)
  · rw [step_of_not_running hs]
    exact ⟨nofun, nofun⟩

theorem decode_of_decodeTableWord {nbits w : Nat} {i : Instr} (h : decodeTableWord nbits w = some i) :
    decode (tableRecord nbits w) = .ok i := by
  unfold decodeTableWord at h
  cases hd : decode (tableRecord nbits w) with
  | error e => rw [hd] at h; cases h
  | ok j => rw [hd] at h; cases h; rfl

/-- Settles O40: the placed record is the one fetched at pc. -/
theorem placedRecordIsRunNext : Obligations.PlacedRecordIsRunNext :=
  fun s _ _ _ h => step_of_fetch rfl (placeRecord_getElem? s.prog s.pc.toNat _) (decode_of_decodeTableWord h)

/-- Every instruction has a meaning: no effect is a refusal. -/
theorem exec_ne_refused (i : Instr) (s : State) (why : Refusal) : exec i s ≠ .refused why := by
  intro h
  have he := exec_effect i s
  rw [h] at he
  generalize hr : Host.Outcome.refused why = r at he
  cases he <;> exact nomatch hr

/-- The record a state of the invariant fetches is legal. -/
theorem State.Inv.legal_of_fetch {s : State} (hs : s.Inv) {w : Record} (hf : s.fetch = some w) :
    legalRecord w = true :=
  hs.progLegal w (List.mem_of_getElem? hf)

/-- Settles O49: of the cases of a step two refuse; one needs an illegal record, the other a state that is
not Running. -/
theorem runningEngineIsNeverRefused : Obligations.RunningEngineIsNeverRefused := by
  intro s hinv hs why h
  obtain ⟨_, _, hstep⟩ | ⟨w, e, _, hf, hd, _⟩ | ⟨_, i, _, _, _, hstep⟩ | ⟨hhalted, _⟩ := step_cases s
  · exact nomatch hstep.symm.trans h
  · have hlegal := hinv.legal_of_fetch hf
    rw [legalRecord, hd] at hlegal
    exact nomatch hlegal
  · exact exec_ne_refused i s.advance why (hstep.symm.trans h)
  · exact hhalted hs

end Sys2Proof.Machine
end

section
/-! PROOFS. Arithmetic and logic (R100 to R112, D1): the record word of an instruction's fields is its encoding, an instruction that writes one register changes nothing else, and each of the thirteen is one such instruction. -/

namespace Sys2Proof.Machine

/-! ## Record words -/

theorem fields_res (i : Instr) : i.fields.res = 0 := by cases i <;> rfl

/-- Packing the fields puts each at the place R62 gives it. -/
theorem pack_eq_recordWord {f : Fields} (hres : f.res = 0) :
    pack f = recordWord f.op.val f.form.code f.ra f.rb f.rc f.imm := by
  rw [pack, recordWord, hres, Fin.val_zero]
  congr 1
  omega

/-- The record word of a well-formed instruction's fields decodes to the instruction. -/
theorem decode_recordWord {i : Instr} {f : Fields} (hf : i.fields = f) (hwf : i.wf = true) :
    decode (recordWord f.op.val f.form.code f.ra f.rb f.rc f.imm) = .ok i := by
  subst hf
  exact decode_eq_ok_iff.2 ⟨pack_eq_recordWord (fields_res i), hwf⟩

/-! ## Instructions that write one register -/

theorem writesReg_setReg (s : State) (rd : Reg) (v : Word) : WritesReg s (s.setReg rd v) rd v :=
  ⟨fun r => State.reg_setReg s rd r v, ⟨rfl, rfl⟩, rfl, rfl, fun _ => rfl, ⟨rfl, rfl⟩, rfl, rfl⟩

theorem completes_of_exec_eq_writeReg {i : Instr} {s : State} {rd : Reg} {v : Word}
    (h : exec i s = writeReg rd v s) : Completes i s (fun t => WritesReg s t rd v) :=
  ⟨s.setReg rd v, h, writesReg_setReg s rd v⟩

/-- An instruction of form RRR that writes `f` of its two sources to its first register. -/
theorem threeRegisterRule_of_writeReg {mk : Reg → Reg → Reg → Instr} (m : Mnemonic) {f : Word → Word → Word}
    (h : ∀ rd rs rt, (mk rd rs rt).fields = .ofRRR m rd rs rt ∧ (mk rd rs rt).wf = true ∧
      ∀ s, exec (mk rd rs rt) s = writeReg rd (f (s.reg rs) (s.reg rt)) s) :
    ThreeRegisterRule mk m.tag.val f := by
  intro rd rs rt s
  obtain ⟨hfields, hwf, hexec⟩ := h rd rs rt
  exact ⟨decode_recordWord (f := .ofRRR m rd rs rt) hfields hwf, completes_of_exec_eq_writeReg (hexec s)⟩

/-- An instruction of form RRI that writes `f` of its source and its immediate to its first register. -/
theorem immediateRule_of_writeReg {mk : Reg → Reg → Word → Instr} (m : Mnemonic) {f : Word → Word → Word}
    (h : ∀ rt rs imm, (mk rt rs imm).fields = .ofRRI m rt rs imm ∧ (mk rt rs imm).wf = true ∧
      ∀ s, exec (mk rt rs imm) s = writeReg rt (f (s.reg rs) imm) s) :
    ImmediateRule mk m.tag.val f := by
  intro rt rs imm s
  obtain ⟨hfields, hwf, hexec⟩ := h rt rs imm
  exact ⟨decode_recordWord (f := .ofRRI m rt rs imm) hfields hwf, completes_of_exec_eq_writeReg (hexec s)⟩

/-! ## The statements -/

/-- Settles O1: each of the eight has form RRR, any operands, and writes its rule's value of the two sources. -/
theorem registerArithmeticAndLogicResults : Obligations.RegisterArithmeticAndLogicResults :=
  ⟨threeRegisterRule_of_writeReg .add fun _ _ _ => ⟨rfl, rfl, fun _ => rfl⟩,
   threeRegisterRule_of_writeReg .addu fun _ _ _ => ⟨rfl, rfl, fun _ => rfl⟩,
   threeRegisterRule_of_writeReg .and fun _ _ _ => ⟨rfl, rfl, fun _ => rfl⟩,
   threeRegisterRule_of_writeReg .or fun _ _ _ => ⟨rfl, rfl, fun _ => rfl⟩,
   threeRegisterRule_of_writeReg .xor fun _ _ _ => ⟨rfl, rfl, fun _ => rfl⟩,
   threeRegisterRule_of_writeReg .nor fun _ _ _ => ⟨rfl, rfl, fun _ => rfl⟩,
   threeRegisterRule_of_writeReg .sub fun _ _ _ => ⟨rfl, rfl, fun _ => rfl⟩,
   threeRegisterRule_of_writeReg .subu fun _ _ _ => ⟨rfl, rfl, fun _ => rfl⟩⟩

/-- Settles O2: each of the five has form RRI, any immediate, and writes its rule's value of the source and
the whole immediate. -/
theorem immediateArithmeticAndLogicResults : Obligations.ImmediateArithmeticAndLogicResults :=
  ⟨immediateRule_of_writeReg .addi fun _ _ _ => ⟨rfl, rfl, fun _ => rfl⟩,
   immediateRule_of_writeReg .addiu fun _ _ _ => ⟨rfl, rfl, fun _ => rfl⟩,
   immediateRule_of_writeReg .andi fun _ _ _ => ⟨rfl, rfl, fun _ => rfl⟩,
   immediateRule_of_writeReg .ori fun _ _ _ => ⟨rfl, rfl, fun _ => rfl⟩,
   immediateRule_of_writeReg .xori fun _ _ _ => ⟨rfl, rfl, fun _ => rfl⟩⟩

end Sys2Proof.Machine
end

section
/-! PROOFS. Multiply, divide and remainder (R120 to R126, D14, D15): division and remainder complete or fault by the divisor, the products' halves are those of the integer product, and w32 is a ring map, so a signed and an unsigned reading give one word. -/

namespace Sys2Proof.Machine

/-! ## Instructions that write HI and LO, and instructions that fault -/

theorem writesHiLo_setHi_setLo (s : State) (hi lo : Word) : WritesHiLo s ((s.setHi hi).setLo lo) hi lo :=
  ⟨fun _ => rfl, rfl, rfl, rfl, rfl, fun _ => rfl, ⟨rfl, rfl⟩, ⟨rfl, rfl⟩⟩

theorem faults_of_exec_eq_raise {i : Instr} {s : State} {f : RunFault} (h : exec i s = raise f s) : Faults i s f :=
  ⟨s.setStatus (.faulted f), h, rfl, fun _ => rfl, ⟨rfl, rfl⟩, rfl, fun _ => rfl, rfl, rfl, ⟨rfl, rfl⟩⟩

/-! ## Products and divisions -/

/-- The model's floor division by 2^32 is the floor of the rational quotient. -/
theorem fdiv_eq_floor (p : Int) : Int.fdiv p 4294967296 = Int.floor ((p : Rat) / 2 ^ 32) := by
  rw [Int.fdiv_eq_ediv_of_nonneg p (by decide)]
  exact_mod_cast (Rat.floor_intCast_div_natCast p (2 ^ 32)).symm

/-- An instruction of form RR that writes the product `p` of its two sources to HI and LO. -/
theorem productRule_of_productInto {mk : Reg → Reg → Instr} (m : Mnemonic) {p : Word → Word → Int}
    (h : ∀ rs rt, (mk rs rt).fields = .ofRR m rs rt ∧ (mk rs rt).wf = true ∧
      ∀ s, exec (mk rs rt) s = productInto (p (s.reg rs) (s.reg rt)) s) :
    ProductRule mk m.tag.val p := by
  intro rs rt s
  obtain ⟨hfields, hwf, hexec⟩ := h rs rt
  refine ⟨decode_recordWord (f := .ofRR m rs rt) hfields hwf, _, hexec s, ?_⟩
  rw [← fdiv_eq_floor]
  exact writesHiLo_setHi_setLo s _ _

/-- An instruction of form RR that divides the `read` values of its two sources into HI and LO. -/
theorem divisionRule_of_divideInto {mk : Reg → Reg → Instr} (m : Mnemonic) {read : Word → Int}
    (h : ∀ rs rt, (mk rs rt).fields = .ofRR m rs rt ∧ (mk rs rt).wf = true ∧
      ∀ s, exec (mk rs rt) s = divideInto (read (s.reg rs)) (read (s.reg rt)) s) :
    DivisionRule mk m.tag.val read := by
  intro rs rt s
  obtain ⟨hfields, hwf, hexec⟩ := h rs rt
  refine ⟨decode_recordWord (f := .ofRR m rs rt) hfields hwf, fun hb => ?_, fun hb => ?_⟩
  · exact ⟨_, (hexec s).trans (divideInto_of_ne_zero hb), writesHiLo_setHi_setLo s _ _⟩
  · refine faults_of_exec_eq_raise ?_
    rw [hexec, hb, divideInto_zero]

theorem remainderOf_of_exec_eq_remainderInto {i : Instr} {s : State} {rd : Reg} {a b : Int}
    (h : exec i s = remainderInto rd a b s) : RemainderOf i s rd a b := by
  constructor
  · intro hb
    exact completes_of_exec_eq_writeReg (h.trans (remainderInto_of_ne_zero hb))
  · rintro rfl
    exact faults_of_exec_eq_raise (h.trans (remainderInto_zero rd a s))

/-! ## w32 of sums, differences and products (R9) -/

theorem w32_add (a b : Int) : w32 (a + b) = w32 a + w32 b := BitVec.ofInt_add a b

theorem w32_mul (a b : Int) : w32 (a * b) = w32 a * w32 b := BitVec.ofInt_mul a b

theorem w32_neg (a : Int) : w32 (-a) = -w32 a := BitVec.ofInt_neg

theorem w32_sub (a b : Int) : w32 (a - b) = w32 a - w32 b := by
  rw [sub_eq_add_neg, w32_add, w32_neg, sub_eq_add_neg]

/-! ## The statements -/

/-- Settles O3: div and divu are one division, of the signed and of the unsigned readings. -/
theorem divisionWritesHiAndLoOrFaults : Obligations.DivisionWritesHiAndLoOrFaults :=
  ⟨divisionRule_of_divideInto .div fun _ _ => ⟨rfl, rfl, fun _ => rfl⟩,
   divisionRule_of_divideInto .divu fun _ _ => ⟨rfl, rfl, fun _ => rfl⟩⟩

/-- Settles O4: mult and multu split the signed and the unsigned product alike. -/
theorem multiplicationWritesHiAndLo : Obligations.MultiplicationWritesHiAndLo :=
  ⟨productRule_of_productInto .mult fun _ _ => ⟨rfl, rfl, fun _ => rfl⟩,
   productRule_of_productInto .multu fun _ _ => ⟨rfl, rfl, fun _ => rfl⟩⟩

/-- Settles O5: mul and mulu have form RRR and only write their first register. -/
theorem lowProductLeavesHiAndLo : Obligations.LowProductLeavesHiAndLo :=
  ⟨threeRegisterRule_of_writeReg .mul fun _ _ _ => ⟨rfl, rfl, fun _ => rfl⟩,
   threeRegisterRule_of_writeReg .mulu fun _ _ _ => ⟨rfl, rfl, fun _ => rfl⟩⟩

/-- Settles O6: the forms RRR and RRI share tag 20 and the remainder; the form says which divisor. -/
theorem remainderOfBothForms : Obligations.RemainderOfBothForms :=
  ⟨fun rd rs rt _ => ⟨decode_recordWord (f := .ofRRR .rem rd rs rt) rfl rfl,
     remainderOf_of_exec_eq_remainderInto rfl⟩,
   fun rd rs imm _ => ⟨decode_recordWord (f := .ofRRI .rem rd rs imm) rfl rfl,
     remainderOf_of_exec_eq_remainderInto rfl⟩⟩

/-- Settles O22: both members of a pair write w32 of one operation on readings whose own w32 is the word. -/
theorem signedAndUnsignedPairsAgree : Obligations.SignedAndUnsignedPairsAgree := by
  have hadd (x y : Word) : w32 (sval x + sval y) = w32 (uval x + uval y) := by
    simp only [w32_add, w32_sval, w32_uval]
  have hsub (x y : Word) : w32 (sval x - sval y) = w32 (uval x - uval y) := by
    simp only [w32_sub, w32_sval, w32_uval]
  have hmul (x y : Word) : w32 (sval x * sval y) = w32 (uval x * uval y) := by
    simp only [w32_mul, w32_sval, w32_uval]
  intro rd rs rt imm s
  exact ⟨congrArg (writeReg rd · s) (hadd _ _), congrArg (writeReg rd · s) (hadd _ _),
    congrArg (writeReg rd · s) (hsub _ _), congrArg (writeReg rd · s) (hmul _ _)⟩

end Sys2Proof.Machine
end

section
/-! PROOFS. Shifts (R130 to R136, D16, D17, D20): a register amount goes to the one shift, which SHIFT_WIDE answers from 32 on, a literal amount is well-formed exactly up to 31, and the sign fill is a mask of ones. -/

namespace Sys2Proof.Machine

/-! ## The two shapes of shift -/

/-- A record that holds an instruction's fields is legal only if the instruction's operands are in range. -/
theorem wf_of_legalRecord {i : Instr} {f : Fields} (hf : i.fields = f)
    (h : legalRecord (recordWord f.op.val f.form.code f.ra f.rb f.rc f.imm) = true) : i.wf = true := by
  subst hf
  rw [← pack_eq_recordWord (fields_res i), legalRecord_iff, unpack_pack] at h
  obtain ⟨_, _, _, _, hlit⟩ := h
  exact i.wf_iff_literalInRange.2 hlit

/-- An instruction of form RRR that shifts its second register by the amount in its third. -/
theorem registerShiftRule_of_shiftInto {mk : Reg → Reg → Reg → Instr} (m : Mnemonic) (kind : ShiftKind)
    (h : ∀ rd rt rs, (mk rd rt rs).fields = .ofRRR m rd rt rs ∧ (mk rd rt rs).wf = true ∧
      ∀ s, exec (mk rd rt rs) s = shiftInto kind rd (s.reg rt) (s.reg rs).toNat s) :
    RegisterShiftRule mk m.tag.val kind (shifted kind) := by
  intro rd rt rs s
  obtain ⟨hfields, hwf, hexec⟩ := h rd rt rs
  refine ⟨decode_recordWord (f := .ofRRR m rd rt rs) hfields hwf, fun hle => ?_, fun hwide => ?_⟩
  · exact completes_of_exec_eq_writeReg ((hexec s).trans (shiftInto_of_le hle))
  · have hshift := (hexec s).trans (shiftInto_of_gt hwide)
    cases hout : Config.shiftWide kind (s.reg rt) (s.reg rs).toNat with
    | some w =>
      rw [hout] at hshift
      exact completes_of_exec_eq_writeReg hshift
    | none =>
      rw [hout] at hshift
      exact faults_of_exec_eq_raise hshift

/-- An instruction of form RRI with a shift amount for its literal, that writes `f` of its second register
and the amount. -/
theorem literalShiftRule_of_writeReg {mk : Reg → Reg → Word → Instr} (m : Mnemonic) {f : Word → Nat → Word}
    (h : ∀ rd rt sa, (mk rd rt sa).fields = .ofRRI m rd rt sa ∧ (mk rd rt sa).wf = shiftLiteralOk sa ∧
      ∀ s, sa.toNat ≤ 31 → exec (mk rd rt sa) s = writeReg rd (f (s.reg rt) sa.toNat) s) :
    LiteralShiftRule mk m.tag.val f := by
  intro rd rt sa s
  obtain ⟨hfields, hwf, hexec⟩ := h rd rt sa
  have hrange : (mk rd rt sa).wf = true ↔ sa.toNat ≤ 31 := by rw [hwf, shiftLiteralOk_iff]
  refine ⟨fun hle => ⟨?_, completes_of_exec_eq_writeReg (hexec s hle)⟩, fun hwide => ?_⟩
  · exact decode_recordWord (f := .ofRRI m rd rt sa) hfields (hrange.2 hle)
  · refine Bool.eq_false_iff.2 fun hlegal => ?_
    have hle := hrange.1 (wf_of_legalRecord (f := .ofRRI m rd rt sa) hfields hlegal)
    omega

/-! ## The sign fill as a mask (R135) -/

theorem sval_neg_iff (v : Word) : sval v < 0 ↔ v.msb = true := by
  rw [sval, BitVec.msb_eq_toInt, decide_eq_true_iff]

/-- Bit by bit for a negative value: below bit `w - n` both shifts have the value's bit and the mask is 0;
from there up the logical shift is 0 and the mask is 1. -/
theorem sshiftRight_eq_ushiftRight_or_mask {w : Nat} (v : BitVec w) (n : Nat) :
    v.sshiftRight n = v >>> n ||| (if v.msb = true then ~~~(BitVec.allOnes w >>> n) else 0#w) := by
  cases hs : v.msb with
  | false => simp [BitVec.sshiftRight_eq_of_msb_false hs]
  | true =>
    ext i hi
    by_cases hn : n + i < w
    · simp [BitVec.getElem_sshiftRight, hn]
    · simp [BitVec.getElem_sshiftRight, hn, hs]

/-! ## The statements -/

/-- Settles O7: tag 21 has both forms, tag 23 the register form. -/
theorem leftShiftsOfAllForms : Obligations.LeftShiftsOfAllForms :=
  ⟨literalShiftRule_of_writeReg .sll fun _ _ _ => ⟨rfl, rfl, fun _ hle => shiftInto_of_le hle⟩,
   registerShiftRule_of_shiftInto .sll .sll fun _ _ _ => ⟨rfl, rfl, fun _ => rfl⟩,
   registerShiftRule_of_shiftInto .sllv .sll fun _ _ _ => ⟨rfl, rfl, fun _ => rfl⟩⟩

/-- Settles O8: tag 22 has both forms, tag 24 the register form. -/
theorem logicalRightShiftsOfAllForms : Obligations.LogicalRightShiftsOfAllForms :=
  ⟨literalShiftRule_of_writeReg .srl fun _ _ _ => ⟨rfl, rfl, fun _ hle => shiftInto_of_le hle⟩,
   registerShiftRule_of_shiftInto .srl .srl fun _ _ _ => ⟨rfl, rfl, fun _ => rfl⟩,
   registerShiftRule_of_shiftInto .srlv .srl fun _ _ _ => ⟨rfl, rfl, fun _ => rfl⟩⟩

/-- Settles O9: sra writes the shift by its literal without a check of its own; srav is a register shift. -/
theorem arithmeticRightShiftsFillWithTheSign : Obligations.ArithmeticRightShiftsFillWithTheSign :=
  ⟨literalShiftRule_of_writeReg .sra fun _ _ _ => ⟨rfl, rfl, fun _ _ => rfl⟩,
   registerShiftRule_of_shiftInto .srav .sra fun _ _ _ => ⟨rfl, rfl, fun _ => rfl⟩⟩

/-- Settles O10: the mask method on 32 bits, the model's sign being bit 31; it needs no bound on the amount. -/
theorem maskMethodGivesTheArithmeticShift : Obligations.MaskMethodGivesTheArithmeticShift := by
  intro v n _
  simp only [shifted, sval_neg_iff]
  exact sshiftRight_eq_ushiftRight_or_mask v n

end Sys2Proof.Machine
end

section
/-! PROOFS. Comparisons (R140 to R143): each is an instruction that writes one register, the truth value of a signed or unsigned order as a word. -/

namespace Sys2Proof.Machine

/-! ## The word of a condition -/

theorem boolWord_decide (p : Prop) [Decidable p] : boolWord (decide p) = if p then 1 else 0 := by
  by_cases hp : p
  · rw [decide_eq_true hp, if_pos hp]
    rfl
  · rw [decide_eq_false hp, if_neg hp]
    rfl

/-! ## The statements -/

/-- Settles O11: slt and sltu have form RRR, slti and sltiu form RRI with the whole immediate; each writes
the word of its own condition. -/
theorem comparisonsWriteOneOrZero : Obligations.ComparisonsWriteOneOrZero :=
  ⟨threeRegisterRule_of_writeReg .slt fun _ _ _ => ⟨rfl, rfl, fun s => congrArg (writeReg _ · s) (boolWord_decide _)⟩,
   threeRegisterRule_of_writeReg .sltu fun _ _ _ => ⟨rfl, rfl, fun s => congrArg (writeReg _ · s) (boolWord_decide _)⟩,
   immediateRule_of_writeReg .slti fun _ _ _ => ⟨rfl, rfl, fun s => congrArg (writeReg _ · s) (boolWord_decide _)⟩,
   immediateRule_of_writeReg .sltiu fun _ _ _ => ⟨rfl, rfl, fun s => congrArg (writeReg _ · s) (boolWord_decide _)⟩⟩

end Sys2Proof.Machine
end

section
/-! PROOFS. Branches (R150 to R157): every one is branchIf on a Boolean that decides its rule's condition, so pc is set to the target or to itself and nothing else is written. -/

namespace Sys2Proof.Machine

/-! ## The two outcomes of a branch -/

theorem setsPc_setPc (s : State) (p : Word) : SetsPc s (s.setPc p) p :=
  ⟨fun _ => rfl, ⟨rfl, rfl⟩, rfl, rfl, fun _ => rfl, ⟨rfl, rfl⟩, ⟨rfl, rfl⟩⟩

/-- An instruction that branches on a Boolean which decides `p` goes to its target exactly when `p` holds. -/
theorem completes_of_exec_eq_branchIf {i : Instr} {s : State} {target : Word} {c : Bool} {p : Prop}
    (hexec : exec i s = branchIf c target s) (hc : c = true ↔ p) :
    (p → Completes i s (fun t => SetsPc s t target)) ∧ (¬p → Completes i s (fun t => SetsPc s t s.pc)) := by
  rw [branchIf_eq_next] at hexec
  constructor
  · intro hp
    rw [if_pos (hc.2 hp)] at hexec
    exact ⟨_, hexec, setsPc_setPc s target⟩
  · intro hp
    rw [if_neg (mt hc.1 hp)] at hexec
    exact ⟨_, hexec, setsPc_setPc s s.pc⟩

/-- An instruction of form RRI that branches on the condition `p` of its two registers. -/
theorem twoRegisterBranchRule_of_branchIf {mk : Reg → Reg → Word → Instr} (m : Mnemonic)
    {c : Word → Word → Bool} {p : Word → Word → Prop} (hc : ∀ x y, c x y = true ↔ p x y)
    (h : ∀ rs rt target, (mk rs rt target).fields = .ofRRI m rs rt target ∧ (mk rs rt target).wf = true ∧
      ∀ s, exec (mk rs rt target) s = branchIf (c (s.reg rs) (s.reg rt)) target s) :
    TwoRegisterBranchRule mk m.tag.val p := by
  intro rs rt target s
  obtain ⟨hfields, hwf, hexec⟩ := h rs rt target
  exact ⟨decode_recordWord (f := .ofRRI m rs rt target) hfields hwf,
    completes_of_exec_eq_branchIf (hexec s) (hc _ _)⟩

/-- An instruction of form RA that branches on the condition `p` of its register. -/
theorem zeroBranchRule_of_branchIf {mk : Reg → Word → Instr} (m : Mnemonic)
    {c : Word → Bool} {p : Word → Prop} (hc : ∀ x, c x = true ↔ p x)
    (h : ∀ rs target, (mk rs target).fields = .ofRA m rs target ∧ (mk rs target).wf = true ∧
      ∀ s, exec (mk rs target) s = branchIf (c (s.reg rs)) target s) :
    ZeroBranchRule mk m.tag.val p := by
  intro rs target s
  obtain ⟨hfields, hwf, hexec⟩ := h rs target
  exact ⟨decode_recordWord (f := .ofRA m rs target) hfields hwf,
    completes_of_exec_eq_branchIf (hexec s) (hc _)⟩

/-! ## The conditions of the ordered branches -/

theorem ltSigned_iff (x y : Word) : ltSigned x y = true ↔ sval x < sval y := decide_eq_true_iff

theorem gtSigned_iff (x y : Word) : gtSigned x y = true ↔ sval x > sval y := decide_eq_true_iff

theorem geZero_iff (x : Word) : geZero x = true ↔ sval x ≥ 0 := decide_eq_true_iff

theorem gtZero_iff (x : Word) : gtZero x = true ↔ sval x > 0 := decide_eq_true_iff

theorem leZero_iff (x : Word) : leZero x = true ↔ sval x ≤ 0 := decide_eq_true_iff

/-! ## The statements -/

/-- Settles O12: beq and bne compare the words, blt and bgt their signed readings. -/
theorem twoRegisterBranchesSetPcOrKeepIt : Obligations.TwoRegisterBranchesSetPcOrKeepIt :=
  ⟨twoRegisterBranchRule_of_branchIf .beq (fun _ _ => beq_iff_eq) fun _ _ _ => ⟨rfl, rfl, fun _ => rfl⟩,
   twoRegisterBranchRule_of_branchIf .bne (fun _ _ => bne_iff_ne) fun _ _ _ => ⟨rfl, rfl, fun _ => rfl⟩,
   twoRegisterBranchRule_of_branchIf .blt ltSigned_iff fun _ _ _ => ⟨rfl, rfl, fun _ => rfl⟩,
   twoRegisterBranchRule_of_branchIf .bgt gtSigned_iff fun _ _ _ => ⟨rfl, rfl, fun _ => rfl⟩⟩

/-- Settles O13: the three compare the signed reading of one register with zero, by form RA. -/
theorem zeroBranchesSetPcOrKeepIt : Obligations.ZeroBranchesSetPcOrKeepIt :=
  ⟨zeroBranchRule_of_branchIf .bgez geZero_iff fun _ _ => ⟨rfl, rfl, fun _ => rfl⟩,
   zeroBranchRule_of_branchIf .bgtz gtZero_iff fun _ _ => ⟨rfl, rfl, fun _ => rfl⟩,
   zeroBranchRule_of_branchIf .blez leZero_iff fun _ _ => ⟨rfl, rfl, fun _ => rfl⟩⟩

end Sys2Proof.Machine
end

section
/-! PROOFS. Jumps (R160 to R163, D5, D23): pc is set without a check, the check is that of the next fetch, and jal and jalr set the link register before pc. -/

namespace Sys2Proof.Machine

/-! ## Setting pc, with and without a link -/

/-- Every state meets the check of its next fetch (R223). -/
theorem fetchChecked (t : State) : FetchChecked t := fun hs hlen =>
  ⟨t.setStatus (.faulted (.badOffset t.pc)), step_of_fetch_eq_none hs (List.getElem?_eq_none hlen)⟩

theorem completes_of_exec_eq_setPc {i : Instr} {s : State} {target : Word} (h : exec i s = .next (s.setPc target)) :
    Completes i s (fun t => JumpsTo s t target) :=
  ⟨s.setPc target, h, setsPc_setPc s target, fetchChecked _⟩

theorem linksAndJumpsTo_setReg_setPc (s : State) (target : Word) :
    LinksAndJumpsTo s ((s.setReg linkReg s.pc).setPc target) target :=
  ⟨fun r => State.reg_setReg s linkReg r s.pc, ⟨rfl, rfl⟩, rfl, rfl, fun _ => rfl, ⟨rfl, rfl⟩, ⟨rfl, rfl⟩,
    fetchChecked _⟩

theorem completes_of_exec_eq_setReg_setPc {i : Instr} {s : State} {target : Word}
    (h : exec i s = .next ((s.setReg linkReg s.pc).setPc target)) :
    Completes i s (fun t => LinksAndJumpsTo s t target) :=
  ⟨(s.setReg linkReg s.pc).setPc target, h, linksAndJumpsTo_setReg_setPc s target⟩

/-! ## The statement -/

/-- Settles O14: j and jal have form A and their immediate as the target; jr and jalr have form R, and their
target is the register's value in the state before the link is written. -/
theorem jumpsSetPcAndLink : Obligations.JumpsSetPcAndLink := by
  refine ⟨fun target s => ⟨?_, ?_⟩, fun target s => ⟨?_, ?_⟩, fun rs s => ⟨?_, ?_⟩, fun rs s => ⟨?_, ?_⟩⟩
  · exact decode_recordWord (f := .ofA .j target) rfl rfl
  · exact completes_of_exec_eq_setPc rfl
  · exact decode_recordWord (f := .ofA .jal target) rfl rfl
  · exact completes_of_exec_eq_setReg_setPc rfl
  · exact decode_recordWord (f := .ofR .jr rs) rfl rfl
  · exact completes_of_exec_eq_setPc rfl
  · exact decode_recordWord (f := .ofR .jalr rs) rfl rfl
  · exact completes_of_exec_eq_setReg_setPc rfl

end Sys2Proof.Machine
end

section
/-! PROOFS. Load-immediate and address instructions (R170 to R173, D19): each writes one register; la and li take any operands and check no address, and lhi and llo take exactly the literals of 16 bits. -/

namespace Sys2Proof.Machine

/-! ## The two shapes of rule -/

/-- A pair of forms RA and RI that write their value, and the wrapping sum of base and offset. -/
theorem loadAddressRule_of_writeReg {direct : Reg → Word → Instr} {indirect : Reg → Reg → Word → Instr} (m : Mnemonic)
    (hdirect : ∀ rt value, (direct rt value).fields = .ofRA m rt value ∧ (direct rt value).wf = true ∧
      ∀ s, exec (direct rt value) s = writeReg rt value s)
    (hindirect : ∀ rt base offset, (indirect rt base offset).fields = .ofRI m rt base offset ∧
      (indirect rt base offset).wf = true ∧
      ∀ s, exec (indirect rt base offset) s = writeReg rt (wrappedSum base offset s) s) :
    LoadAddressRule direct indirect m.tag.val := by
  constructor
  · intro rt value s
    obtain ⟨hfields, hwf, hexec⟩ := hdirect rt value
    exact ⟨decode_recordWord (f := .ofRA m rt value) hfields hwf, completes_of_exec_eq_writeReg (hexec s)⟩
  · intro rt base offset s
    obtain ⟨hfields, hwf, hexec⟩ := hindirect rt base offset
    exact ⟨decode_recordWord (f := .ofRI m rt base offset) hfields hwf, completes_of_exec_eq_writeReg (hexec s)⟩

/-- An instruction of form RA with a half for its literal, that writes `f` of its register's old value and
the half. -/
theorem halfRule_of_writeReg {mk : Reg → Word → Instr} (m : Mnemonic) {f : Word → BitVec 16 → Word}
    (h : ∀ rt value, (mk rt value).fields = .ofRA m rt value ∧ (mk rt value).wf = halfLiteralOk value ∧
      ∀ s, exec (mk rt value) s = writeReg rt (f (s.reg rt) (immHalf value)) s) :
    HalfRule mk m.tag.val f := by
  intro rt value s
  obtain ⟨hfields, hwf, hexec⟩ := h rt value
  have hrange : (mk rt value).wf = true ↔ -2 ^ 15 ≤ value.toInt ∧ value.toInt ≤ 2 ^ 16 - 1 := by
    rw [hwf, halfLiteralOk_iff]
  refine ⟨fun hin => ⟨?_, completes_of_exec_eq_writeReg (hexec s)⟩, fun hout => ?_⟩
  · exact decode_recordWord (f := .ofRA m rt value) hfields (hrange.2 hin)
  · refine Bool.eq_false_iff.2 fun hlegal => ?_
    obtain ⟨hlow, hhigh⟩ := hrange.1 (wf_of_legalRecord (f := .ofRA m rt value) hfields hlegal)
    omega

/-! ## The statements -/

/-- Settles O15: li is la under another tag, and every literal is legal in both forms. -/
theorem loadAddressAndLoadImmediate : Obligations.LoadAddressAndLoadImmediate :=
  ⟨loadAddressRule_of_writeReg .la (fun _ _ => ⟨rfl, rfl, fun _ => rfl⟩) fun _ _ _ => ⟨rfl, rfl, fun _ => rfl⟩,
   loadAddressRule_of_writeReg .li (fun _ _ => ⟨rfl, rfl, fun _ => rfl⟩) fun _ _ _ => ⟨rfl, rfl, fun _ => rfl⟩⟩

/-- Settles O16: lhi and llo differ only in which half of the old value they keep. -/
theorem halfLoadsKeepTheOtherHalf : Obligations.HalfLoadsKeepTheOtherHalf :=
  ⟨halfRule_of_writeReg .lhi fun _ _ => ⟨rfl, rfl, fun _ => rfl⟩,
   halfRule_of_writeReg .llo fun _ _ => ⟨rfl, rfl, fun _ => rfl⟩⟩

end Sys2Proof.Machine
end

section
/-! PROOFS. Loads and stores (R180 to R188, R44 to R46): the address of each form goes to the one load or the one store, which completes exactly when every byte is in memory. -/

namespace Sys2Proof.Machine

/-! ## In and out of bounds -/

theorem State.inBounds_eq_false {s : State} {a : Int} {n : Nat} (h : a < 0 ∨ (s.memSize : Int) < a + n) :
    s.inBounds a n = false := by
  refine Bool.eq_false_iff.2 fun hb => ?_
  obtain ⟨h0, hend⟩ := State.inBounds_iff.1 hb
  omega

/-! ## Loads -/

theorem loadsAt_of_exec_eq_loadInto {i : Instr} {s : State} {rt : Reg} {a : Int} {n : Nat} {widen : Nat → Word}
    {value : State → Nat → Word} (hvalue : ∀ b, widen (leValue (Memory.readBytes s.mem b n)) = value s b)
    (h : exec i s = loadInto rt a n widen s) : LoadsAt i s rt a n value := by
  constructor
  · intro hin
    rw [← hvalue]
    exact completes_of_exec_eq_writeReg (h.trans (loadInto_of_inBounds (State.inBounds_iff.2 hin)))
  · intro hout
    exact faults_of_exec_eq_raise (h.trans (loadInto_of_outOfBounds (State.inBounds_eq_false hout)))

/-- A pair of forms RA and RI that load `n` bytes, whose widened little-endian value is `value`. -/
theorem loadRule_of_loadInto {direct : Reg → Word → Instr} {indirect : Reg → Reg → Word → Instr} (m : Mnemonic)
    {n : Nat} {widen : Nat → Word} {value : State → Nat → Word}
    (hvalue : ∀ s b, widen (leValue (Memory.readBytes s.mem b n)) = value s b)
    (hdirect : ∀ rt address, (direct rt address).fields = .ofRA m rt address ∧ (direct rt address).wf = true ∧
      ∀ s, exec (direct rt address) s = loadInto rt (directAddress address) n widen s)
    (hindirect : ∀ rt base offset, (indirect rt base offset).fields = .ofRI m rt base offset ∧
      (indirect rt base offset).wf = true ∧
      ∀ s, exec (indirect rt base offset) s = loadInto rt (indirectAddress base offset s) n widen s) :
    LoadRule direct indirect m.tag.val n value := by
  constructor
  · intro rt address s
    obtain ⟨hfields, hwf, hexec⟩ := hdirect rt address
    exact ⟨decode_recordWord (f := .ofRA m rt address) hfields hwf,
      loadsAt_of_exec_eq_loadInto (hvalue s) (hexec s)⟩
  · intro rt base offset s
    obtain ⟨hfields, hwf, hexec⟩ := hindirect rt base offset
    exact ⟨decode_recordWord (f := .ofRI m rt base offset) hfields hwf,
      loadsAt_of_exec_eq_loadInto (hvalue s) (hexec s)⟩

/-- One byte is its own little-endian value. -/
theorem leValue_one (b : Byte) : BitVec.ofNat 8 (leValue [b]) = b := by simp [leValue]

/-- Settles O17: the five differ in the width and in how the little-endian value is extended. -/
theorem loadsReadLittleEndianOrFault : Obligations.LoadsReadLittleEndianOrFault :=
  ⟨loadRule_of_loadInto .lb (fun _ _ => congrArg (BitVec.signExtend 32) (leValue_one _))
     (fun _ _ => ⟨rfl, rfl, fun _ => rfl⟩) fun _ _ _ => ⟨rfl, rfl, fun _ => rfl⟩,
   loadRule_of_loadInto .lbu (fun _ _ => congrArg (BitVec.setWidth 32) (leValue_one _))
     (fun _ _ => ⟨rfl, rfl, fun _ => rfl⟩) fun _ _ _ => ⟨rfl, rfl, fun _ => rfl⟩,
   loadRule_of_loadInto .lh (fun _ _ => congrArg (BitVec.signExtend 32) (leValue_two _ _))
     (fun _ _ => ⟨rfl, rfl, fun _ => rfl⟩) fun _ _ _ => ⟨rfl, rfl, fun _ => rfl⟩,
   loadRule_of_loadInto .lhu (fun _ _ => congrArg (BitVec.setWidth 32) (leValue_two _ _))
     (fun _ _ => ⟨rfl, rfl, fun _ => rfl⟩) fun _ _ _ => ⟨rfl, rfl, fun _ => rfl⟩,
   loadRule_of_loadInto .lw (fun _ _ => leValue_four _ _ _ _)
     (fun _ _ => ⟨rfl, rfl, fun _ => rfl⟩) fun _ _ _ => ⟨rfl, rfl, fun _ => rfl⟩⟩

/-! ## Stores -/

theorem writesBytes_setMem {s : State} (a n : Nat) (v : Word) (hm : Memory.wf s.mem = true) :
    WritesBytes s (s.setMem (Memory.writeBytes s.mem a (leBytes n v))) a n (fun k => v.extractLsb' (8 * k) 8) := by
  refine ⟨fun k hk => ?_, fun b hb => ?_, fun _ => rfl, ⟨rfl, rfl⟩, rfl, rfl, ⟨rfl, rfl⟩, ⟨rfl, rfl⟩⟩
  · rw [← leBytes_length n v] at hk
    exact (Memory.read_writeBytes_inside a _ k hm hk).trans (leBytes_getElem n v k hk)
  · rw [← leBytes_length n v] at hb
    exact Memory.read_writeBytes_outside a _ b hm hb

theorem storesAt_of_exec_eq_storeAt {i : Instr} {s : State} {a : Int} {n : Nat} {v : Word}
    (hm : Memory.wf s.mem = true) (h : exec i s = storeAt a n v s) : StoresAt i s a n v := by
  constructor
  · intro hin
    exact ⟨_, h.trans (storeAt_of_inBounds (State.inBounds_iff.2 hin)), writesBytes_setMem a.toNat n v hm⟩
  · intro hout
    exact faults_of_exec_eq_raise (h.trans (storeAt_of_outOfBounds (State.inBounds_eq_false hout)))

/-- A pair of forms RA and RI that store the low `n` bytes of their first register. -/
theorem storeRule_of_storeAt {direct : Reg → Word → Instr} {indirect : Reg → Reg → Word → Instr} (m : Mnemonic)
    {n : Nat}
    (hdirect : ∀ rt address, (direct rt address).fields = .ofRA m rt address ∧ (direct rt address).wf = true ∧
      ∀ s, exec (direct rt address) s = storeAt (directAddress address) n (s.reg rt) s)
    (hindirect : ∀ rt base offset, (indirect rt base offset).fields = .ofRI m rt base offset ∧
      (indirect rt base offset).wf = true ∧
      ∀ s, exec (indirect rt base offset) s = storeAt (indirectAddress base offset s) n (s.reg rt) s) :
    StoreRule direct indirect m.tag.val n := by
  constructor
  · intro rt address s hm
    obtain ⟨hfields, hwf, hexec⟩ := hdirect rt address
    exact ⟨decode_recordWord (f := .ofRA m rt address) hfields hwf, storesAt_of_exec_eq_storeAt hm (hexec s)⟩
  · intro rt base offset s hm
    obtain ⟨hfields, hwf, hexec⟩ := hindirect rt base offset
    exact ⟨decode_recordWord (f := .ofRI m rt base offset) hfields hwf, storesAt_of_exec_eq_storeAt hm (hexec s)⟩

/-- Settles O18: the three differ in the width only. -/
theorem storesWriteLittleEndianOrFault : Obligations.StoresWriteLittleEndianOrFault :=
  ⟨storeRule_of_storeAt .sb (fun _ _ => ⟨rfl, rfl, fun _ => rfl⟩) fun _ _ _ => ⟨rfl, rfl, fun _ => rfl⟩,
   storeRule_of_storeAt .sh (fun _ _ => ⟨rfl, rfl, fun _ => rfl⟩) fun _ _ _ => ⟨rfl, rfl, fun _ => rfl⟩,
   storeRule_of_storeAt .sw (fun _ _ => ⟨rfl, rfl, fun _ => rfl⟩) fun _ _ _ => ⟨rfl, rfl, fun _ => rfl⟩⟩

end Sys2Proof.Machine
end

section
/-! PROOFS. Register moves (R190 to R194) and nop (R200): each copies one register or nothing, and a step adds only the advance of pc. -/

namespace Sys2Proof.Machine

/-- Settles O19: mfhi, mflo and mthi, mtlo have form R, move has form RR. A write of HI alone writes LO's own
value back to LO, and the other way round. -/
theorem movesCopyOneRegister : Obligations.MovesCopyOneRegister :=
  ⟨fun rd _ => ⟨decode_recordWord (f := .ofR .mfhi rd) rfl rfl, completes_of_exec_eq_writeReg rfl⟩,
   fun rd _ => ⟨decode_recordWord (f := .ofR .mflo rd) rfl rfl, completes_of_exec_eq_writeReg rfl⟩,
   fun rs s => ⟨decode_recordWord (f := .ofR .mthi rs) rfl rfl, _, rfl, writesHiLo_setHi_setLo s (s.reg rs) s.lo⟩,
   fun rs s => ⟨decode_recordWord (f := .ofR .mtlo rs) rfl rfl, _, rfl, writesHiLo_setHi_setLo s s.hi (s.reg rs)⟩,
   fun rd rs _ => ⟨decode_recordWord (f := .ofRR .move rd rs) rfl rfl, completes_of_exec_eq_writeReg rfl⟩⟩

/-- Settles O20: nop answers the state it is given, so a step that runs it answers the advanced state. -/
theorem nopOnlyAdvancesPc : Obligations.NopOnlyAdvancesPc := by
  have hdecode : decode (recordWord 59 0 0 0 0 0) = .ok .nop :=
    decode_recordWord (f := .ofNullary .nop) rfl rfl
  refine ⟨hdecode, fun s => ⟨s, rfl, setsPc_setPc s s.pc⟩, fun s hs hf => ?_⟩
  refine ⟨s.advance, step_of_fetch hs hf hdecode, ?_⟩
  rw [State.advance, w32_uval_succ]
  exact setsPc_setPc s (s.pc + 1)

end Sys2Proof.Machine
end

section
/-! PROOFS. The division identity (D15): it holds of the integer readings, w32 carries it to words, and the remainder, smaller than the divisor, is its own signed reading. -/

namespace Sys2Proof.Machine

theorem sval_eq_zero_iff (v : Word) : sval v = 0 ↔ v = 0#32 := by
  rw [sval, ← BitVec.toInt_inj, BitVec.toInt_zero]

/-- An integer of 32 signed bits is the signed reading of its word. -/
theorem sval_w32 {n : Int} (hlow : -2 ^ 31 ≤ n) (hhigh : n < 2 ^ 31) : sval (w32 n) = n :=
  BitVec.toInt_ofInt_eq_self (by decide) hlow hhigh

theorem natAbs_trem_lt (a : Int) {b : Int} (hb : b ≠ 0) : (trem a b).natAbs < b.natAbs := by
  rw [trem_eq_tmod, Int.natAbs_tmod]
  exact Nat.mod_lt _ (Int.natAbs_pos.2 hb)

theorem trem_sign_cases (a b : Int) : trem a b = 0 ∨ (trem a b).sign = a.sign := by
  rw [trem_eq_tmod, Int.sign_tmod, ← Int.dvd_iff_tmod_eq_zero]
  split
  · exact .inl ‹_›
  · exact .inr rfl

theorem sval_w32_trem (a : Int) {v : Word} (hv : sval v ≠ 0) : sval (w32 (trem a (sval v))) = trem a (sval v) := by
  have hlt := natAbs_trem_lt a hv
  have hlow : -2 ^ 31 ≤ sval v := v.le_toInt
  have hhigh : sval v < 2 ^ 31 := v.toInt_lt
  exact sval_w32 (by omega) (by omega)

/-- Settles O23: the three parts are facts of the integer remainder, also where -2^31 / -1 wraps. -/
theorem divisionIdentity : Obligations.DivisionIdentity := by
  intro rs rt s hne
  have hb : sval (s.reg rt) ≠ 0 := mt (sval_eq_zero_iff _).1 hne
  refine ⟨_, divideInto_of_ne_zero hb, ?_, ?_⟩
  · calc s.reg rs = w32 (sval (s.reg rs)) := (w32_sval _).symm
      _ = w32 (sval (s.reg rt) * tdiv (sval (s.reg rs)) (sval (s.reg rt)) +
            trem (sval (s.reg rs)) (sval (s.reg rt))) := by rw [trem, add_sub_cancel]
      _ = _ := by rw [w32_add, w32_mul, w32_sval]; rfl
  · simp only [State.setHi_hi, sval_w32_trem _ hb]
    exact ⟨natAbs_trem_lt _ hb, trem_sign_cases _ _⟩

end Sys2Proof.Machine
end

section
/-! PROOFS. Text and input (R202, R204, R205, R210, log 8): the model's readers and printers are the ones the statements describe, each as an equation or an equivalence. -/

namespace Sys2Proof.Machine

/-! ## Digits -/

theorem digitByte_toNat {d : Nat} (hd : d < 10) : (digitByte d).toNat = 48 + d := by
  rw [digitByte, BitVec.toNat_ofNat]
  omega

theorem digitValue_eq_some {b : Byte} {d : Nat} : digitValue b = some d ↔ d < 10 ∧ b = digitByte d := by
  rw [digitValue, Option.ite_none_right_eq_some, Option.some.injEq]
  constructor
  · rintro ⟨⟨hlow, hhigh⟩, rfl⟩
    refine ⟨by omega, BitVec.eq_of_toNat_eq ?_⟩
    rw [digitByte_toNat (by omega)]
    omega
  · rintro ⟨hd, rfl⟩
    rw [digitByte_toNat hd]
    omega

theorem isSpace_digitByte {d : Nat} (hd : d < 10) : isSpace (digitByte d) = false := by
  decide +revert

theorem digitByte_ne_sign {d : Nat} (hd : d < 10) : digitByte d ≠ 0x2B#8 ∧ digitByte d ≠ 0x2D#8 := by
  decide +revert

/-- Text is read as a number after `acc` exactly when it is the digits of one. -/
theorem digitsValue_eq_some {t : List Byte} {acc n : Nat} : digitsValue t acc = some n ↔
    ∃ ds : List Nat, (∀ d ∈ ds, d < 10) ∧ t = ds.map digitByte ∧ ds.foldl (fun v d => 10 * v + d) acc = n := by
  induction t generalizing acc with
  | nil =>
    rw [digitsValue, Option.some.injEq]
    constructor
    · rintro rfl
      exact ⟨[], nofun, rfl, rfl⟩
    · rintro ⟨ds, _, hmap, hval⟩
      obtain rfl : ds = [] := List.map_eq_nil_iff.1 hmap.symm
      exact hval
  | cons b bs ih =>
    rw [digitsValue]
    constructor
    · intro h
      cases hb : digitValue b with
      | none => rw [hb] at h; cases h
      | some d =>
        rw [hb] at h
        obtain ⟨hd, rfl⟩ := digitValue_eq_some.1 hb
        obtain ⟨ds, hds, rfl, hval⟩ := ih.1 h
        exact ⟨d :: ds, List.forall_mem_cons.2 ⟨hd, hds⟩, rfl, hval⟩
    · rintro ⟨ds, hds, hmap, hval⟩
      cases ds with
      | nil => cases hmap
      | cons d ds =>
        obtain ⟨hd, hds⟩ := List.forall_mem_cons.1 hds
        obtain ⟨rfl, rfl⟩ := List.cons.inj hmap
        rw [digitValue_eq_some.2 ⟨hd, rfl⟩]
        exact ih.2 ⟨ds, hds, rfl, hval⟩

theorem unsignedValue_eq_some {t : List Byte} {n : Nat} : unsignedValue t = some n ↔
    ∃ ds : List Nat, (∀ d ∈ ds, d < 10) ∧ ds ≠ [] ∧ t = ds.map digitByte ∧ digitsToNat ds = n := by
  rw [unsignedValue, Option.ite_none_left_eq_some, digitsValue_eq_some]
  constructor
  · rintro ⟨hne, ds, hds, rfl, hval⟩
    exact ⟨ds, hds, mt (congrArg (List.map digitByte)) hne, rfl, hval⟩
  · rintro ⟨ds, hds, hne, rfl, hval⟩
    exact ⟨mt List.map_eq_nil_iff.1 hne, ds, hds, rfl, hval⟩

/-! ## Signed text -/

theorem signedValue_plus (t : List Byte) :
    signedValue (0x2B#8 :: t) = (unsignedValue t).map (fun n : Nat => (n : Int)) := rfl

theorem signedValue_minus (t : List Byte) :
    signedValue (0x2D#8 :: t) = (unsignedValue t).map (fun n : Nat => -(n : Int)) := rfl

theorem signedValue_unsigned {b : Byte} (t : List Byte) (hplus : b ≠ 0x2B#8) (hminus : b ≠ 0x2D#8) :
    signedValue (b :: t) = (unsignedValue (b :: t)).map (fun n : Nat => (n : Int)) := by
  rw [signedValue, if_neg hplus, if_neg hminus]

theorem isIntegerText_of_signedValue {t : List Byte} {n : Int} (h : signedValue t = some n) :
    IsIntegerText n t := by
  cases t with
  | nil => cases h
  | cons b bs =>
    by_cases hplus : b = 0x2B#8
    · rw [hplus, signedValue_plus, Option.map_eq_some_iff] at h
      obtain ⟨k, hk, rfl⟩ := h
      obtain ⟨ds, hds, hne, rfl, rfl⟩ := unsignedValue_eq_some.1 hk
      exact ⟨[b], ds, hds, hne, rfl, .inl ⟨.inr (congrArg ([·]) hplus), rfl⟩⟩
    · by_cases hminus : b = 0x2D#8
      · rw [hminus, signedValue_minus, Option.map_eq_some_iff] at h
        obtain ⟨k, hk, rfl⟩ := h
        obtain ⟨ds, hds, hne, rfl, rfl⟩ := unsignedValue_eq_some.1 hk
        exact ⟨[b], ds, hds, hne, rfl, .inr ⟨congrArg ([·]) hminus, rfl⟩⟩
      · rw [signedValue_unsigned bs hplus hminus, Option.map_eq_some_iff] at h
        obtain ⟨k, hk, rfl⟩ := h
        obtain ⟨ds, hds, hne, ht, rfl⟩ := unsignedValue_eq_some.1 hk
        exact ⟨[], ds, hds, hne, ht, .inl ⟨.inl rfl, rfl⟩⟩

theorem signedValue_of_isIntegerText {t : List Byte} {n : Int} (h : IsIntegerText n t) :
    signedValue t = some n := by
  obtain ⟨sign, ds, hds, hne, rfl, hsign⟩ := h
  have hval : unsignedValue (ds.map digitByte) = some (digitsToNat ds) :=
    unsignedValue_eq_some.2 ⟨ds, hds, hne, rfl, rfl⟩
  obtain ⟨rfl | rfl, rfl⟩ | ⟨rfl, rfl⟩ := hsign
  · cases ds with
    | nil => exact absurd rfl hne
    | cons d ds =>
      obtain ⟨hplus, hminus⟩ := digitByte_ne_sign (hds d List.mem_cons_self)
      exact (signedValue_unsigned _ hplus hminus).trans (congrArg (Option.map _) hval)
  · exact (signedValue_plus _).trans (congrArg (Option.map _) hval)
  · exact (signedValue_minus _).trans (congrArg (Option.map _) hval)

theorem signedValue_eq_some {t : List Byte} {n : Int} : signedValue t = some n ↔ IsIntegerText n t :=
  ⟨isIntegerText_of_signedValue, signedValue_of_isIntegerText⟩

theorem IsIntegerText.ne_nil {t : List Byte} {n : Int} (h : IsIntegerText n t) : t ≠ [] := by
  obtain ⟨sign, ds, _, hne, rfl, _⟩ := h
  exact List.append_ne_nil_of_right_ne_nil _ (mt List.map_eq_nil_iff.1 hne)

/-- Neither a digit nor a sign is whitespace. -/
theorem IsIntegerText.not_isSpace {t : List Byte} {n : Int} (h : IsIntegerText n t) {b : Byte} (hb : b ∈ t) :
    isSpace b = false := by
  obtain ⟨sign, ds, hds, _, rfl, hsign⟩ := h
  obtain hb | hb := List.mem_append.1 hb
  · obtain ⟨rfl | rfl, _⟩ | ⟨rfl, _⟩ := hsign
    · cases hb
    · rw [List.mem_singleton.1 hb]; rfl
    · rw [List.mem_singleton.1 hb]; rfl
  · obtain ⟨d, hd, rfl⟩ := List.mem_map.1 hb
    exact isSpace_digitByte (hds d hd)

/-! ## Trimming -/

theorem dropWhile_append_of_not {p : Byte → Bool} {t : List Byte} (after : List Byte) (hne : t ≠ [])
    (ht : ∀ b ∈ t, p b = false) : (t ++ after).dropWhile p = t ++ after := by
  cases t with
  | nil => exact absurd rfl hne
  | cons b bs => exact List.dropWhile_cons_of_neg (by simp [ht b List.mem_cons_self])

/-- Whitespace around text without whitespace is trimmed, and no more. -/
theorem trim_append {before t after : List Byte} (hbefore : ∀ b ∈ before, isSpace b = true)
    (hafter : ∀ b ∈ after, isSpace b = true) (hne : t ≠ []) (ht : ∀ b ∈ t, isSpace b = false) :
    trim (before ++ t ++ after) = t := by
  have hlead : (before ++ t ++ after).dropWhile isSpace = t ++ after := by
    rw [List.append_assoc, List.dropWhile_append_of_pos hbefore, dropWhile_append_of_not after hne ht]
  have htrail : (t ++ after).reverse.dropWhile isSpace = t.reverse := by
    rw [List.reverse_append, List.dropWhile_append_of_pos (fun b hb => hafter b (List.mem_reverse.1 hb))]
    simpa using dropWhile_append_of_not (p := isSpace) [] (mt List.reverse_eq_nil_iff.1 hne)
      (fun b hb => ht b (List.mem_reverse.1 hb))
  rw [trim, hlead, htrail, List.reverse_reverse]

/-- What is trimmed is whitespace at the two ends. -/
theorem exists_eq_append_trim_append (line : List Byte) : ∃ before after, line = before ++ trim line ++ after ∧
    (∀ b ∈ before, isSpace b = true) ∧ ∀ b ∈ after, isSpace b = true := by
  refine ⟨line.takeWhile isSpace, (line.dropWhile isSpace).rtakeWhile isSpace, ?_,
    fun b hb => List.mem_takeWhile_imp hb, fun b hb => List.mem_rtakeWhile_imp hb⟩
  have htrail : trim line ++ (line.dropWhile isSpace).rtakeWhile isSpace = line.dropWhile isSpace :=
    List.rdropWhile_append_rtakeWhile
  rw [List.append_assoc, htrail, List.takeWhile_append_dropWhile]

/-- The integer of a line is the one the statements describe. -/
theorem lineInteger_eq_some {line : List Byte} {n : Int} : lineInteger line = some n ↔ LineReadsAs line n := by
  unfold lineInteger
  constructor
  · intro h
    cases hval : signedValue (trim line) with
    | none => rw [hval] at h; cases h
    | some k =>
      simp only [hval, Option.ite_none_right_eq_some, Option.some.injEq] at h
      obtain ⟨hrange, rfl⟩ := h
      obtain ⟨before, after, hline, hbefore, hafter⟩ := exists_eq_append_trim_append line
      exact ⟨before, trim line, after, hline, hbefore, hafter, signedValue_eq_some.1 hval, by omega, by omega⟩
  · rintro ⟨before, t, after, rfl, hbefore, hafter, ht, hlow, hhigh⟩
    rw [trim_append hbefore hafter ht.ne_nil (fun b hb => ht.not_isSpace hb)]
    simp only [signedValue_eq_some.2 ht]
    exact if_pos (by omega)

/-! ## Decimal text -/

/-- `ds` are the decimal digits of `n` without leading zeros. -/
def IsNumeral (n : Nat) (ds : List Nat) : Prop :=
  (∀ d ∈ ds, d < 10) ∧ ds ≠ [] ∧ (ds.head? = some 0 → ds = [0]) ∧ digitsToNat ds = n

theorem isNumeral_singleton {n : Nat} (hn : n < 10) : IsNumeral n [n] := by
  refine ⟨by simpa using hn, by simp, fun h => ?_, by simp [digitsToNat]⟩
  rw [List.head?_cons, Option.some.injEq] at h
  rw [h]

/-- The digits of a number of two digits or more are those of its tenth and its last one. -/
theorem IsNumeral.concat {n : Nat} {ds : List Nat} (h : IsNumeral (n / 10) ds) (hn : 10 ≤ n) :
    IsNumeral n (ds ++ [n % 10]) := by
  obtain ⟨hds, hne, hzero, hval⟩ := h
  refine ⟨?_, by simp, fun hhead => ?_, ?_⟩
  · simp only [List.mem_append, List.mem_singleton]
    rintro d (hd | rfl)
    · exact hds d hd
    · omega
  · rw [List.head?_append_of_ne_nil ds hne] at hhead
    rw [hzero hhead] at hval
    have : 0 = n / 10 := hval
    omega
  · rw [digitsToNat, List.foldl_append, ← digitsToNat, hval]
    exact Nat.div_add_mod n 10

/-- With one unit of fuel for each digit, decDigits prints the digits before `acc`. -/
theorem decDigits_eq (fuel n : Nat) (acc : List Byte) (hn : n < 10 ^ (fuel + 1)) :
    ∃ ds, IsNumeral n ds ∧ decDigits (fuel + 1) n acc = ds.map digitByte ++ acc := by
  induction fuel generalizing n acc with
  | zero => exact ⟨[n], isNumeral_singleton hn, if_pos hn⟩
  | succ fuel ih =>
    rw [decDigits]
    split
    · exact ⟨[n], isNumeral_singleton ‹_›, rfl⟩
    · obtain ⟨ds, hds, hprint⟩ := ih (n / 10) (digitByte (n % 10) :: acc) (by omega)
      refine ⟨ds ++ [n % 10], hds.concat (by omega), ?_⟩
      rw [hprint, List.map_append, List.append_assoc]
      rfl

/-- Ten digits are enough for every 32-bit integer. -/
theorem isDecimalText_dec {n : Int} (hn : n.natAbs < 10 ^ 10) : IsDecimalText n (dec n) := by
  obtain ⟨ds, ⟨hds, hne, hzero, hval⟩, hprint⟩ := decDigits_eq 9 n.natAbs [] hn
  refine ⟨ds, hds, hne, hzero, hval, ?_⟩
  rw [dec, hprint, List.append_nil]
  split
  · rfl
  · rfl

theorem IsDecimalText.isIntegerText {t : List Byte} {n : Int} (h : IsDecimalText n t) : IsIntegerText n t := by
  obtain ⟨ds, hds, hne, _, hval, rfl⟩ := h
  refine ⟨_, ds, hds, hne, rfl, ?_⟩
  split
  · exact .inr ⟨rfl, by omega⟩
  · exact .inl ⟨.inl rfl, by omega⟩

/-! ## Reads -/

/-- A line that ends in its only newline is read up to there. -/
theorem takeLine_append_newline {body : List Byte} (rest : List Byte) (h : newline ∉ body) :
    takeLine (body ++ newline :: rest) = (body ++ [newline], rest) := by
  induction body with
  | nil => rfl
  | cons b bs ih =>
    obtain ⟨hb, hbs⟩ := not_or.1 (mt List.mem_cons.2 h)
    rw [List.cons_append, takeLine, if_neg (Ne.symm hb), ih hbs]
    rfl

/-- Input without a newline is read whole. -/
theorem takeLine_of_not_mem {line : List Byte} (h : newline ∉ line) : takeLine line = (line, []) := by
  induction line with
  | nil => rfl
  | cons b bs ih =>
    obtain ⟨hb, hbs⟩ := not_or.1 (mt List.mem_cons.2 h)
    rw [takeLine, if_neg (Ne.symm hb), ih hbs]

theorem conReadLine_of_isFirstLine {input line rest : List Byte} (h : IsFirstLine input line rest) :
    conReadLine input = some (line, rest) := by
  obtain ⟨rfl, hne, hline⟩ := h
  rw [conReadLine, if_neg (List.append_ne_nil_of_left_ne_nil hne rest), Option.some.injEq]
  obtain ⟨body, rfl, hbody⟩ | ⟨hline, rfl⟩ := hline
  · rw [List.append_assoc]
    exact takeLine_append_newline rest hbody
  · rw [List.append_nil]
    exact takeLine_of_not_mem hline

/-- The bytes ConReadUpTo removes, and those it leaves, are the ones the statements describe. -/
theorem conReadUpTo_of_isReadUpTo {input got rest : List Byte} {n : Nat} (h : IsReadUpTo input n got rest) :
    conReadUpTo input n = (got, rest) := by
  induction input generalizing n got with
  | nil =>
    obtain ⟨happend, _⟩ := h
    obtain ⟨rfl, rfl⟩ := List.append_eq_nil_iff.1 happend.symm
    rfl
  | cons b bs ih =>
    obtain ⟨happend, hlen, hinner, hend⟩ := h
    cases got with
    | nil =>
      obtain rfl : 0 = n := by simpa [← happend.trans (List.nil_append rest)] using hend
      rw [conReadUpTo, if_pos rfl, happend, List.nil_append]
    | cons c got =>
      obtain ⟨rfl, rfl⟩ := List.cons.inj happend
      rw [List.length_cons] at hlen hend
      rw [conReadUpTo, if_neg (by omega)]
      split
      · rename_i hnewline
        obtain rfl : got = [] := by
          cases got with
          | nil => rfl
          | cons d got => exact absurd (congrArg some hnewline) (hinner 0 (by simp))
        rfl
      · rename_i hnewline
        have hgot : IsReadUpTo (got ++ rest) (n - 1) got rest := by
          refine ⟨rfl, by omega, fun k hk => hinner (k + 1) (by simpa using hk), ?_⟩
          obtain hlen | hlast | hrest := hend
          · exact .inl (by omega)
          · cases got with
            | nil => exact absurd (Option.some.inj hlast) hnewline
            | cons d got => exact .inr (.inl hlast)
          · exact .inr (.inr hrest)
        rw [ih hgot]

end Sys2Proof.Machine
end

section
/-! PROOFS. The services of syscall (R201 to R209, R226): the number in x[2] selects the service, each service's answer is an equation per case, and the statements read the case's frame. -/

namespace Sys2Proof.Machine

/-! ## The frames of a print and of a read -/

theorem prints_conWrite (s : State) (bs : List Byte) : Prints s (s.conWrite bs) bs :=
  ⟨rfl, rfl, fun _ => rfl, ⟨rfl, rfl⟩, rfl, rfl, fun _ => rfl, ⟨rfl, rfl⟩⟩

theorem readsInto_setInput_setReg (s : State) (rest : List Byte) (v : Word) :
    ReadsInto s ((s.setInput rest).setReg serviceReg v) rest v :=
  ⟨rfl, rfl, fun r => State.reg_setReg (s.setInput rest) serviceReg r v, ⟨rfl, rfl⟩, rfl, rfl, fun _ => rfl,
    ⟨rfl, rfl⟩⟩

theorem faultsReading_of_exec_eq_raise {i : Instr} {s : State} {f : RunFault} {rest : List Byte}
    (h : exec i s = raise f (s.setInput rest)) : FaultsReading i s f rest :=
  ⟨(s.setInput rest).setStatus (.faulted f), h, rfl, fun _ => rfl, ⟨rfl, rfl⟩, rfl, fun _ => rfl, rfl, rfl,
    ⟨rfl, rfl⟩⟩

/-! ## The service of a number -/

section
variable {s : State}

theorem exec_syscall_printInteger (h : s.reg 2 = 1#32) : exec .syscall s = servicePrintInteger s := by
  simp [exec, execSyscall, serviceReg, h]

theorem exec_syscall_printString (h : s.reg 2 = 4#32) : exec .syscall s = servicePrintString s := by
  simp [exec, execSyscall, serviceReg, h]

theorem exec_syscall_readInteger (h : s.reg 2 = 5#32) : exec .syscall s = serviceReadInteger s := by
  simp [exec, execSyscall, serviceReg, h]

theorem exec_syscall_readBytes (h : s.reg 2 = 8#32) : exec .syscall s = serviceReadBytes s := by
  simp [exec, execSyscall, serviceReg, h]

theorem exec_syscall_exit (h : s.reg 2 = 10#32) : exec .syscall s = serviceExit s := by
  simp [exec, execSyscall, serviceReg, h]

theorem exec_syscall_printCharacter (h : s.reg 2 = 11#32) : exec .syscall s = servicePrintCharacter s := by
  simp [exec, execSyscall, serviceReg, h]

theorem exec_syscall_readCharacter (h : s.reg 2 = 12#32) : exec .syscall s = serviceReadCharacter s := by
  simp [exec, execSyscall, serviceReg, h]

theorem exec_syscall_unknown (h : (s.reg 2).toNat ∉ [1, 4, 5, 8, 10, 11, 12]) :
    exec .syscall s = raise (.noSuchService (s.reg 2).toNat s.index) s := by
  simp only [List.mem_cons, List.not_mem_nil, or_false, not_or] at h
  simp [exec, execSyscall, serviceReg, h]

end

/-- Settles O32: syscall has form NONE, and the number is none of the seven. -/
theorem unknownServiceFaults : Obligations.UnknownServiceFaults :=
  ⟨decode_recordWord (f := .ofNullary .syscall) rfl rfl,
    fun _ h => faults_of_exec_eq_raise (exec_syscall_unknown h)⟩

/-! ## Printing: services 1, 4 and 11 -/

theorem sval_range (v : Word) : -2 ^ 31 ≤ sval v ∧ sval v ≤ 2 ^ 31 - 1 :=
  ⟨v.le_toInt, Int.le_sub_one_of_lt v.toInt_lt⟩

/-- Settles O25: service 1 prints `dec`, which has digits enough for every signed word. -/
theorem printIntegerPrintsDecimalText : Obligations.PrintIntegerPrintsDecimalText := by
  intro s hs
  obtain ⟨hlow, hhigh⟩ := sval_range (s.reg 4)
  exact ⟨dec (sval (s.reg 4)), isDecimalText_dec (by omega), _, exec_syscall_printInteger hs, prints_conWrite s _⟩

/-- Settles O30: bits 31:8 of `x[4]` are not read. -/
theorem printCharacterPrintsTheLowByte : Obligations.PrintCharacterPrintsTheLowByte :=
  fun s hs => ⟨_, exec_syscall_printCharacter hs, prints_conWrite s _⟩

section
variable {s : State} {n : Nat}

theorem servicePrintString_of_ended (hne : ∀ k, k < n → s.byteAt ((s.reg 4).toNat + k) ≠ 0#8)
    (hzero : s.byteAt ((s.reg 4).toNat + n) = 0#8) (hn : (s.reg 4).toNat + n < s.memSize) :
    servicePrintString s =
      .next (s.conWrite ((List.range n).map (fun k => s.byteAt ((s.reg 4).toNat + k)))) := by
  have hstring := stringBytes_eq_some s.mem (s.memSize - (s.reg 4).toNat) (s.reg 4).toNat n hne hzero (by omega)
  simp only [servicePrintString, argReg, hstring]
  rfl

/-- Of a string that is not ended inside memory, `n` bytes can be read; the next address is the first
outside. -/
theorem servicePrintString_of_not_ended (hne : ∀ k, k < n → s.byteAt ((s.reg 4).toNat + k) ≠ 0#8)
    (hin : n = 0 ∨ (s.reg 4).toNat + n ≤ s.memSize) (hout : s.memSize ≤ (s.reg 4).toNat + n) :
    servicePrintString s = raise (.memoryBounds ((s.reg 4).toNat + n : Nat) 1 s.index) s := by
  have hstring := stringBytes_eq_none s.mem (s.memSize - (s.reg 4).toNat) (s.reg 4).toNat
    (fun k hk => hne k (by omega))
  have hfirst : max (s.reg 4).toNat s.memSize = (s.reg 4).toNat + n := by omega
  simp only [servicePrintString, argReg, hstring, hfirst]

end

/-- Settles O26: the two cases of the string read before it is printed. -/
theorem printStringReadsItWholeFirst : Obligations.PrintStringReadsItWholeFirst := by
  refine fun s hs => ⟨fun n hne hzero hn => ?_, fun n hne hin hout => ?_⟩
  · exact ⟨_, (exec_syscall_printString hs).trans (servicePrintString_of_ended hne hzero hn), prints_conWrite s _⟩
  · exact faults_of_exec_eq_raise
      ((exec_syscall_printString hs).trans (servicePrintString_of_not_ended hne hin hout))

/-! ## Reading an integer: service 5 -/

section
variable {s : State}

theorem serviceReadInteger_of_no_input (h : s.consoleIn = []) :
    serviceReadInteger s = raise (.endOfInput 5 s.index) s := by
  simp only [serviceReadInteger, h, conReadLine, if_true]

variable {line rest : List Byte} (hline : conReadLine s.consoleIn = some (line, rest))
include hline

theorem serviceReadInteger_of_integer {n : Int} (h : lineInteger line = some n) :
    serviceReadInteger s = .next ((s.setInput rest).setReg serviceReg (w32 n)) := by
  simp only [serviceReadInteger, hline, h]

theorem serviceReadInteger_of_no_integer (h : lineInteger line = none) :
    serviceReadInteger s = raise (.badInput 5 s.index) (s.setInput rest) := by
  simp only [serviceReadInteger, hline, h]

end

/-- Settles O27: the model's line and its integer are those of the statement. -/
theorem readIntegerConsumesOneLine : Obligations.ReadIntegerConsumesOneLine := by
  intro s hs
  have hexec := exec_syscall_readInteger hs
  refine ⟨fun h => ?_, fun line rest hfirst => ?_⟩
  · exact faults_of_exec_eq_raise (hexec.trans (serviceReadInteger_of_no_input h))
  · have hline := conReadLine_of_isFirstLine hfirst
    refine ⟨fun n hn => ?_, fun hnone => ?_⟩
    · exact ⟨_, hexec.trans (serviceReadInteger_of_integer hline (lineInteger_eq_some.2 hn)),
        readsInto_setInput_setReg s rest _⟩
    · have hinteger : lineInteger line = none :=
        Option.eq_none_iff_forall_ne_some.2 fun n => mt lineInteger_eq_some.1 (hnone n)
      exact faultsReading_of_exec_eq_raise
        (hexec.trans (serviceReadInteger_of_no_integer hline hinteger))

/-- A decimal text and a newline are a line that reads as the integer. -/
theorem IsDecimalText.lineReadsAs {v : Word} {text : List Byte} (h : IsDecimalText (sval v) text) :
    LineReadsAs (text ++ [0x0A#8]) (sval v) := by
  obtain ⟨hlow, hhigh⟩ := sval_range v
  refine ⟨[], text, [0x0A#8], rfl, nofun, fun b hb => ?_, h.isIntegerText, hlow, hhigh⟩
  rw [List.mem_singleton.1 hb]
  rfl

/-- No newline is in an integer's text, since a newline is whitespace. -/
theorem IsIntegerText.isFirstLine {n : Int} {text : List Byte} (h : IsIntegerText n text) (rest : List Byte) :
    IsFirstLine (text ++ 0x0A#8 :: rest) (text ++ [0x0A#8]) rest := by
  refine ⟨(List.append_cons text 0x0A#8 rest), by simp, .inl ⟨text, rfl, fun hmem => ?_⟩⟩
  have hspace : isSpace 0x0A#8 = true := rfl
  exact nomatch hspace.symm.trans (h.not_isSpace hmem)

/-- Settles O34: what service 1 prints (O25), with a newline after it, is a line that service 5 reads as the
same integer (O27). -/
theorem printedIntegerIsReadBack : Obligations.PrintedIntegerIsReadBack := by
  intro s u hs hu
  obtain ⟨text, htext, t, hexec, hout, _⟩ := printIntegerPrintsDecimalText s hs
  obtain ⟨_, hread⟩ := readIntegerConsumesOneLine u hu
  refine ⟨t, text, hexec, hout, fun rest hin => ?_⟩
  obtain ⟨hinteger, _⟩ := hread (text ++ [0x0A#8]) rest (hin ▸ htext.isIntegerText.isFirstLine rest)
  have hcompletes := hinteger _ htext.lineReadsAs
  rwa [w32_sval] at hcompletes

/-! ## Reading bytes: service 8 -/

/-- The two cases of the count N are those of the statement. -/
theorem readAtMost_eq {input got rest : List Byte} {n : Int} (hle : n ≤ 0 → got = [] ∧ rest = input)
    (hpos : 0 < n → IsReadUpTo input n.toNat got rest) : readAtMost input n = (got, rest) := by
  unfold readAtMost
  split
  · obtain ⟨rfl, rfl⟩ := hle ‹_›
    rfl
  · exact conReadUpTo_of_isReadUpTo (hpos (by omega))

/-- With no input left service 8 reads nothing, whatever the count. -/
theorem readAtMost_nil (n : Int) : readAtMost [] n = ([], []) := by
  unfold readAtMost
  split
  · rfl
  · rfl

section
variable {s : State} {got rest : List Byte}
  (hgot : readAtMost s.consoleIn (sval (s.reg 5)) = (got, rest))
include hgot

/-- An empty read writes no byte, so its answer has the form of a read that fits. -/
theorem serviceReadBytes_of_fits (hfits : got = [] ∨ (s.reg 4).toNat + got.length ≤ s.memSize) :
    serviceReadBytes s = .next (((s.setInput rest).setMem
      (Memory.writeBytes s.mem (s.reg 4).toNat got)).setReg serviceReg (w32 got.length)) := by
  by_cases hnil : got = []
  · subst hnil
    simp only [serviceReadBytes, arg2Reg, hgot, if_true]
    rfl
  · have hb : (s.setInput rest).inBounds (uval (s.reg 4)) got.length = true := by
      have hend := hfits.resolve_left hnil
      exact State.inBounds_iff.2 ⟨Int.natCast_nonneg _, by rw [uval]; exact_mod_cast hend⟩
    simp only [serviceReadBytes, arg2Reg, argReg, hgot, if_neg hnil, State.memWrite, hb, if_true]
    rfl

theorem serviceReadBytes_of_not_fits (hnil : got ≠ []) (hout : s.memSize < (s.reg 4).toNat + got.length) :
    serviceReadBytes s = raise (.memoryBounds (uval (s.reg 4)) got.length s.index) (s.setInput rest) := by
  have hb : (s.setInput rest).inBounds (uval (s.reg 4)) got.length = false :=
    State.inBounds_eq_false (.inr (by rw [uval]; exact_mod_cast hout))
  have hwrite := State.memWrite_eq_none.2 hb
  simp only [serviceReadBytes, arg2Reg, argReg, hgot, if_neg hnil, hwrite]

end

/-- Settles O28: the bytes read are those of the statement, and they fit or do not. -/
theorem readBytesFillsTheBuffer : Obligations.ReadBytesFillsTheBuffer := by
  intro s got rest hs hm hle hpos
  have hexec := exec_syscall_readBytes hs
  have hgot := readAtMost_eq hle hpos
  refine ⟨fun hfits => ⟨_, hexec.trans (serviceReadBytes_of_fits hgot hfits), ?_⟩, fun ⟨hnil, hout⟩ => ?_⟩
  · refine ⟨fun k hk => ?_, fun b hb => ?_, fun r => State.reg_setReg _ serviceReg r _, ⟨rfl, rfl⟩, rfl, rfl, rfl,
      rfl, ⟨rfl, rfl⟩⟩
    · rw [List.getD_eq_getElem _ _ hk]
      exact Memory.read_writeBytes_inside _ got k hm hk
    · exact Memory.read_writeBytes_outside _ got b hm hb
  · exact faultsReading_of_exec_eq_raise (hexec.trans (serviceReadBytes_of_not_fits hgot hnil hout))

/-! ## Reading a character: service 12 -/

theorem serviceReadCharacter_of_cons {s : State} {b : Byte} {rest : List Byte} (h : s.consoleIn = b :: rest) :
    serviceReadCharacter s = .next ((s.setInput rest).setReg serviceReg (b.setWidth 32)) := by
  simp only [serviceReadCharacter, h, conReadByte, zext, BitVec.ofNat_toNat, BitVec.setWidth_eq]

theorem serviceReadCharacter_of_no_input {s : State} (h : s.consoleIn = []) :
    serviceReadCharacter s = raise (.endOfInput 12 s.index) s := by
  simp only [serviceReadCharacter, h, conReadByte]

/-- Settles O31: the two cases of the input. -/
theorem readCharacterConsumesOneByte : Obligations.ReadCharacterConsumesOneByte := by
  refine fun s hs => ⟨fun b rest hin => ?_, fun hin => ?_⟩
  · exact ⟨_, (exec_syscall_readCharacter hs).trans (serviceReadCharacter_of_cons hin),
      readsInto_setInput_setReg s rest _⟩
  · exact faults_of_exec_eq_raise ((exec_syscall_readCharacter hs).trans (serviceReadCharacter_of_no_input hin))

/-- Settles O33: services 5 and 12 as in O27 and O31; an empty read of service 8 always fits. -/
theorem endOfInputFaultsOnlyBlockingReads : Obligations.EndOfInputFaultsOnlyBlockingReads := by
  refine fun s hin => ⟨fun hs => ?_, fun hs => ?_, fun hs => ?_⟩
  · obtain ⟨hfault, _⟩ := readIntegerConsumesOneLine s hs
    exact hfault hin
  · obtain ⟨_, hfault⟩ := readCharacterConsumesOneByte s hs
    exact hfault hin
  · have hgot : readAtMost s.consoleIn (sval (s.reg 5)) = ([], []) := by rw [hin, readAtMost_nil]
    exact ⟨_, (exec_syscall_readBytes hs).trans (serviceReadBytes_of_fits hgot (.inl rfl)),
      readsInto_setInput_setReg s [] 0#32⟩

end Sys2Proof.Machine
end

section
/-! PROOFS. Faults and ends of a run (R206, R220 to R230, D14): every answer of an instruction keeps the status, is the exit, or raises a fault of its row of R221, listed once with the input it leaves. -/

namespace Sys2Proof.Machine

/-! ## What an instruction can raise -/

/-- The instruction is a division or a remainder whose divisor is 0 in state `s`. -/
def DividesByZero (i : Instr) (s : State) : Prop :=
  (∃ rs rt, (i = .div rs rt ∨ i = .divu rs rt ∨ ∃ rd, i = .remReg rd rs rt) ∧ s.reg rt = 0#32) ∨
    ∃ rd rs, i = .remImm rd rs 0#32

/-- The faults instruction `i` can raise in state `s`, each with the input that is left. A literal shift
raises ShiftWide only where no record carries it (R68, log 12). -/
inductive Raising (i : Instr) (s : State) : RunFault → List Byte → Prop where
  | access (a : Int) (n : Nat) (hop : isLoadOrStore i = true ∨ i = .syscall) :
      Raising i s (.memoryBounds a n s.index) s.consoleIn
  | divisor (hop : DividesByZero i s) : Raising i s (.divideByZero s.index) s.consoleIn
  | shift (n : Nat) (hop : isRegisterShift i = true ∨ i.wf = false) :
      Raising i s (.shiftWide n s.index) s.consoleIn
  | service (v : Nat) (hop : i = .syscall) : Raising i s (.noSuchService v s.index) s.consoleIn
  | endOfInput (service : Nat) (hop : i = .syscall) (hs : service = 5 ∨ service = 12) :
      Raising i s (.endOfInput service s.index) s.consoleIn
  | badInput (got rest : List Byte) (hop : i = .syscall) (h : got ++ rest = s.consoleIn) :
      Raising i s (.badInput 5 s.index) rest
  | buffer (a : Int) (got rest : List Byte) (hop : i = .syscall) (h : got ++ rest = s.consoleIn) :
      Raising i s (.memoryBounds a got.length s.index) rest

/-- The answers of instruction `i` in state `s`, by what they do to the status. -/
inductive Answer (i : Instr) (s : State) : Result → Prop where
  | next {t : State} (h : t.status = s.status) : Answer i s (.next t)
  | exit (hop : i = .syscall) (hv : s.reg 2 = 10#32) : Answer i s (.next (s.exit (s.reg 4)))
  | raise {f : RunFault} {rest : List Byte} (h : Raising i s f rest) :
      Answer i s (.fault (.raised f ((s.setInput rest).setStatus (.faulted f))))

section
variable {i : Instr} {s : State}

theorem Answer.ofDivide {a b : Int} (hop : b = 0 → DividesByZero i s) : Answer i s (divideInto a b s) := by
  unfold divideInto
  split
  · exact .raise (.divisor (hop ‹_›))
  · exact .next rfl

theorem Answer.ofRemainder {rd : Reg} {a b : Int} (hop : b = 0 → DividesByZero i s) :
    Answer i s (remainderInto rd a b s) := by
  unfold remainderInto
  split
  · exact .raise (.divisor (hop ‹_›))
  · exact .next rfl

theorem Answer.ofShift {kind : ShiftKind} {rd : Reg} {v : Word} {n : Nat}
    (hop : ¬n ≤ 31 → isRegisterShift i = true ∨ i.wf = false) : Answer i s (shiftInto kind rd v n s) := by
  unfold shiftInto
  split
  · exact .next rfl
  · split
    · exact .next rfl
    · exact .raise (.shift n (hop ‹_›))

theorem Answer.ofBranch (c : Bool) (target : Word) : Answer i s (branchIf c target s) := by
  rw [branchIf_eq_next]
  exact .next rfl

theorem Answer.ofLoad {rt : Reg} {a : Int} {n : Nat} {widen : Nat → Word} (hop : isLoadOrStore i = true) :
    Answer i s (loadInto rt a n widen s) := by
  unfold loadInto
  split
  · exact .next rfl
  · exact .raise (.access a n (.inl hop))

theorem Answer.ofStore {a : Int} {n : Nat} {v : Word} (hop : isLoadOrStore i = true) :
    Answer i s (storeAt a n v s) := by
  unfold storeAt
  split
  · rename_i t ht
    obtain ⟨_, rfl⟩ := State.memWrite_eq_some.1 ht
    exact .next rfl
  · exact .raise (.access a n (.inl hop))

/-! ### The services of syscall -/

theorem Answer.ofPrintString : Answer .syscall s (servicePrintString s) := by
  unfold servicePrintString
  simp only
  split
  · exact .next rfl
  · exact .raise (.access _ 1 (.inr rfl))

theorem Answer.ofReadInteger : Answer .syscall s (serviceReadInteger s) := by
  unfold serviceReadInteger
  split
  · exact .raise (.endOfInput 5 rfl (.inl rfl))
  · rename_i line rest hline
    split
    · exact .raise (.badInput line rest rfl (conReadLine_eq_some hline))
    · exact .next rfl

theorem Answer.ofReadBytes : Answer .syscall s (serviceReadBytes s) := by
  unfold serviceReadBytes
  simp only
  split
  · exact .next rfl
  · split
    · rename_i t ht
      obtain ⟨_, rfl⟩ := State.memWrite_eq_some.1 ht
      exact .next rfl
    · exact .raise (.buffer _ _ _ rfl (readAtMost_append s.consoleIn _))

theorem Answer.ofReadCharacter : Answer .syscall s (serviceReadCharacter s) := by
  unfold serviceReadCharacter
  split
  · exact .raise (.endOfInput 12 rfl (.inr rfl))
  · exact .next rfl

theorem Answer.ofSyscall : Answer .syscall s (execSyscall s) := by
  unfold execSyscall
  simp only
  repeat' split
  · exact .next rfl
  · exact .ofPrintString
  · exact .ofReadInteger
  · exact .ofReadBytes
  · exact .exit rfl (BitVec.eq_of_toNat_eq ‹_›)
  · exact .next rfl
  · exact .ofReadCharacter
  · exact .raise (.service _ rfl)

end

theorem uval_eq_zero_iff (v : Word) : uval v = 0 ↔ v = 0#32 := by
  rw [uval, Int.natCast_eq_zero, BitVec.toNat_eq]
  rfl

/-- A literal shift that is wide is ill-formed. -/
theorem shiftLiteralOk_eq_false {sa : Word} (h : ¬immAmount sa ≤ 31) : shiftLiteralOk sa = false :=
  Bool.eq_false_iff.2 (mt (shiftLiteralOk_iff sa).1 h)

/-- Every answer of `exec` is one of the listed ones. -/
theorem exec_answer (i : Instr) (s : State) : Answer i s (exec i s) := by
  cases i with
  | add | addu | addi | addiu | and | andi | or | ori | xor | xori | nor | sub | subu | mult | multu | mul | mulu
  | sra | slt | sltu | slti | sltiu | j | jal | jr | jalr | laDirect | laIndirect | liDirect | liIndirect | lhi
  | llo | mfhi | mflo | mthi | mtlo | move | nop => exact .next rfl
  | div rs rt => exact .ofDivide fun hb => .inl ⟨rs, rt, .inl rfl, (sval_eq_zero_iff _).1 hb⟩
  | divu rs rt => exact .ofDivide fun hb => .inl ⟨rs, rt, .inr (.inl rfl), (uval_eq_zero_iff _).1 hb⟩
  | remReg rd rs rt =>
    exact .ofRemainder fun hb => .inl ⟨rs, rt, .inr (.inr ⟨rd, rfl⟩), (sval_eq_zero_iff _).1 hb⟩
  | remImm rd rs imm => exact .ofRemainder fun hb => .inr ⟨rd, rs, by rw [(sval_eq_zero_iff imm).1 hb]⟩
  | sllReg | srlReg | sllv | srlv | srav => exact .ofShift fun _ => .inl rfl
  | sllImm | srlImm => exact .ofShift fun hwide => .inr (shiftLiteralOk_eq_false hwide)
  | beq | bne | blt | bgt | bgez | bgtz | blez => exact .ofBranch _ _
  | lbDirect | lbIndirect | lbuDirect | lbuIndirect | lhDirect | lhIndirect | lhuDirect | lhuIndirect
  | lwDirect | lwIndirect => exact .ofLoad rfl
  | sbDirect | sbIndirect | shDirect | shIndirect | swDirect | swIndirect => exact .ofStore rfl
  | syscall => exact .ofSyscall

/-! ## What is read off the list -/

section
variable {i : Instr} {s t : State} {f : RunFault} {rest : List Byte}

theorem status_of_exec_eq_next (h : exec i s = .next t) :
    t.status = s.status ∨ (i = .syscall ∧ s.reg 2 = 10#32 ∧ t.status = .exited (s.reg 4)) := by
  have ha := exec_answer i s
  rw [h] at ha
  cases ha with
  | next hkept => exact .inl hkept
  | exit hop hv => exact .inr ⟨hop, hv, rfl⟩

theorem raising_of_exec_eq_fault (h : exec i s = .fault (.raised f t)) :
    ∃ rest, Raising i s f rest ∧ t = (s.setInput rest).setStatus (.faulted f) := by
  have ha := exec_answer i s
  rw [h] at ha
  cases ha with
  | raise hraising => exact ⟨_, hraising, rfl⟩

theorem DividesByZero.isDivision (h : DividesByZero i s) : isDivision i = true := by
  obtain ⟨_, _, rfl | rfl | ⟨_, rfl⟩, _⟩ | ⟨_, _, rfl⟩ := h <;> rfl

/-- A legal record raises only the faults of its row (R221, R230). -/
theorem Raising.raisedBy (h : Raising i s f rest) (hwf : i.wf = true) : raisedBy f i := by
  cases h with
  | access _ _ hop => exact hop
  | divisor hop => exact hop.isDivision
  | shift _ hop => exact hop.resolve_right (by simp [hwf])
  | service _ hop => exact hop
  | endOfInput _ hop hs => exact ⟨hop, hs⟩
  | badInput _ _ hop => exact ⟨hop, rfl⟩
  | buffer _ _ _ hop => exact .inr hop

theorem Raising.faultAt (h : Raising i s f rest) : faultAt f = some s.index := by
  cases h <;> rfl

theorem Raising.ne_badOffset (h : Raising i s f rest) (p : Word) : f ≠ .badOffset p := by
  rintro rfl
  cases h

/-- Only service 5 with BadInput and service 8 with MemoryBounds have consumed input when they fault. -/
theorem Raising.consumed (h : Raising i s f rest) : ∃ got, got ++ rest = s.consoleIn ∧
    (got ≠ [] → (∃ index, f = .badInput 5 index) ∨ ∃ a index, f = .memoryBounds a got.length index) := by
  cases h with
  | badInput got _ _ h => exact ⟨got, h, fun _ => .inl ⟨_, rfl⟩⟩
  | buffer a got _ _ h => exact ⟨got, h, fun _ => .inr ⟨a, _, rfl⟩⟩
  | _ => exact ⟨[], rfl, fun hne => absurd rfl hne⟩

/-- A step that raises a fault raised BadOffset at the fetch, or ran the instruction that raised it. -/
theorem step_eq_fault (h : step s = .fault (.raised f t)) :
    (s.fetch = none ∧ f = .badOffset s.pc ∧ t = s.setStatus (.faulted f)) ∨
    ∃ w i, s.fetch = some w ∧ decode w = .ok i ∧ exec i s.advance = .fault (.raised f t) := by
  obtain ⟨_, hf, hs⟩ | ⟨_, _, _, _, _, hs⟩ | ⟨w, i, _, hf, hd, hs⟩ | ⟨_, hs⟩ := step_cases s
  · obtain ⟨rfl, rfl⟩ := raise_eq_fault.1 (hs.symm.trans h)
    exact .inl ⟨hf, rfl, rfl⟩
  · exact nomatch hs.symm.trans h
  · exact .inr ⟨w, i, hf, hd, hs.symm.trans h⟩
  · exact nomatch hs.symm.trans h

theorem step_of_status_faulted (h : t.status = .faulted f) : step t = .refused (.halted (.faulted f)) := by
  rw [step_of_not_running (by simp [h]), h]

theorem step_of_status_exited {code : Word} (h : t.status = .exited code) :
    step t = .refused (.halted (.exited code)) := by
  rw [step_of_not_running (by simp [h]), h]

theorem exec_of_dividesByZero (h : DividesByZero i s) : exec i s = raise (.divideByZero s.index) s := by
  obtain ⟨rs, rt, hop, hzero⟩ | ⟨rd, rs, rfl⟩ := h
  · have hsigned : sval (s.reg rt) = 0 := (sval_eq_zero_iff _).2 hzero
    have hunsigned : uval (s.reg rt) = 0 := (uval_eq_zero_iff _).2 hzero
    obtain rfl | rfl | ⟨rd, rfl⟩ := hop
    · exact (congrArg (divideInto _ · s) hsigned).trans (divideInto_zero _ s)
    · exact (congrArg (divideInto _ · s) hunsigned).trans (divideInto_zero _ s)
    · exact (congrArg (remainderInto rd _ · s) hsigned).trans (remainderInto_zero rd _ s)
  · exact remainderInto_zero rd (sval (s.reg rs)) s

end

/-! ## The statements -/

/-- Settles O29: of the answers that go on only the exit changes the status, and a step runs only in a
Running state. -/
theorem exitEndsTheRun : Obligations.ExitEndsTheRun := by
  refine ⟨fun s hs => ?_, fun s t hstep hend => ?_⟩
  · exact ⟨s.exit (s.reg 4), exec_syscall_exit hs, rfl, fun _ => rfl, ⟨rfl, rfl⟩, rfl, fun _ => rfl, ⟨rfl, rfl⟩,
      ⟨rfl, rfl⟩, step_of_status_exited rfl⟩
  · obtain ⟨w, i, hrunning, hf, hd, hexec⟩ := step_eq_next hstep
    obtain hkept | ⟨rfl, hv, hexit⟩ := status_of_exec_eq_next hexec
    · exact absurd (hkept.trans hrunning) hend
    · exact ⟨w, hf, hd, hv, hexit⟩

/-- Settles O41: a fault of the fetch is raised on the state itself, one of an instruction on the advanced
state less the input its read consumed. -/
theorem faultingStepWritesNothing : Obligations.FaultingStepWritesNothing := by
  intro s t f hstep
  obtain ⟨_, rfl, rfl⟩ | ⟨w, i, _, _, hexec⟩ := step_eq_fault hstep
  · exact ⟨rfl, fun _ => rfl, ⟨rfl, rfl⟩, fun _ => rfl, rfl, ⟨rfl, rfl⟩, (if_pos rfl).symm,
      ⟨[], rfl, fun hne => absurd rfl hne⟩, step_of_status_faulted rfl⟩
  · obtain ⟨rest, hraising, rfl⟩ := raising_of_exec_eq_fault hexec
    refine ⟨rfl, fun _ => rfl, ⟨rfl, rfl⟩, fun _ => rfl, rfl, ⟨rfl, rfl⟩, ?_, hraising.consumed,
      step_of_status_faulted rfl⟩
    rw [if_neg (hraising.ne_badOffset s.pc)]
    exact w32_uval_succ s.pc

/-- Settles O42: the codes are the table's, and a fault of an instruction has its row and its index. -/
theorem faultsComeFromTheirInstructions : Obligations.FaultsComeFromTheirInstructions := by
  refine ⟨fun _ _ _ _ => ⟨rfl, rfl, rfl, rfl, rfl, rfl, rfl⟩, fun s t f hstep => ?_⟩
  obtain ⟨hf, rfl, _⟩ | ⟨w, i, hf, hd, hexec⟩ := step_eq_fault hstep
  · exact .inl ⟨rfl, List.getElem?_eq_none_iff.1 hf⟩
  · obtain ⟨rest, hraising, _⟩ := raising_of_exec_eq_fault hexec
    obtain ⟨_, hwf⟩ := decode_eq_ok_iff.1 hd
    exact .inr ⟨w, i, hf, hd, hraising.raisedBy hwf, by rw [hraising.faultAt, State.advance_index]⟩

/-- Settles O43: DivideByZero is listed for a zero divisor alone, and a zero divisor raises it. -/
theorem divideByZeroExactlyForAZeroDivisor : Obligations.DivideByZeroExactlyForAZeroDivisor := by
  intro i s
  constructor
  · rintro ⟨index, t, hexec⟩
    obtain ⟨rest, hraising, _⟩ := raising_of_exec_eq_fault hexec
    cases hraising with
    | divisor hop => exact hop
  · intro hop
    exact ⟨s.index, _, exec_of_dividesByZero hop⟩

end Sys2Proof.Machine
end

section
/-! PROOFS. The console (R210, R238): what a next state can have done to it is read off `Effect`, and that only syscall does it off `Completion`. -/

namespace Sys2Proof.Machine

/-- An effect removes input from the front and appends output at the end. -/
theorem Effect.console {s t : State} (he : Effect s (.next t)) :
    ∃ got put, got ++ t.consoleIn = s.consoleIn ∧ t.consoleOut = s.consoleOut ++ put := by
  generalize hr : Host.Outcome.next t = r at he
  cases he with
  | print bs => cases hr; exact ⟨[], bs, rfl, rfl⟩
  | read got _ _ h => cases hr; exact ⟨got, [], h, (List.append_nil _).symm⟩
  | readBytes got _ _ _ h => cases hr; exact ⟨got, [], h, (List.append_nil _).symm⟩
  | fault f => exact absurd hr.symm (raise_ne_next f s t)
  | faultAfterRead f _ rest _ => exact absurd hr.symm (raise_ne_next f (s.setInput rest) t)
  | _ => cases hr; exact ⟨[], [], rfl, (List.append_nil _).symm⟩

theorem Completion.keepsConsole {i : Instr} {s t : State} (hc : Completion i s t) (hop : i ≠ .syscall) :
    KeepsConsole s t := by
  cases hc with
  | print _ h => exact absurd h hop
  | read _ _ h => exact absurd h hop
  | readBytes _ _ h => exact absurd h hop
  | _ => exact ⟨rfl, rfl⟩

/-- Settles O48: the advance of pc leaves the console alone, so a step does what its instruction does. -/
theorem consoleIsUsedOnlyBySyscall : Obligations.ConsoleIsUsedOnlyBySyscall := by
  refine ⟨fun i s t hexec hop => (exec_completion hexec).keepsConsole hop, fun s t hstep => ?_⟩
  obtain ⟨_, i, _, _, _, hexec⟩ := step_eq_next hstep
  have he : Effect s.advance (.next t) := hexec ▸ exec_effect i s.advance
  exact he.console

end Sys2Proof.Machine
end
